-- ==== Sys2Proof/Word.lean ====
section
/-! DEFINITION. The 32-bit word of the ports and its two conversions with the integers (00_scope.md R7, R8). -/

namespace Sys2Proof

/-- A word on a 32-bit port (R6 `WORD`). -/
abbrev Word := BitVec 32

/-- `u32(v) = v mod 2^32` (R8). -/
abbrev u32 (v : Int) : Word := BitVec.ofInt 32 v

/-- `s32(w)`, the two's complement value of `w` (R8). -/
abbrev s32 (w : Word) : Int := w.toInt

end Sys2Proof
end

