-- ==== Sys2Proof/Config.lean ====
section
/-! DEFINITION. What an implementation of the unit fixes at design time (00_scope.md R6: the values marked
"parameter") and the one value the spec leaves free. The defaults are `Machine.defaultParams` in Machine/Params.lean. -/

namespace Sys2Proof

/-- `PACK_WRAP` (R6, R52, D8): how `pack` treats an exponent whose `e + 127` lies outside 0..255. -/
inductive PackWrap where
  /-- R52's 32-bit evaluation: bit 8 of `e + 127` lands in bit 31. -/
  | word32
  /-- `e + 127` is masked to 8 bits. -/
  | mask8
deriving DecidableEq, Repr

/-- `BF2I_NEG_ROUND` (R6, D14): BF.BF2I of a negative non-integer. -/
inductive NegRound where
  | towardZero
  | floor
deriving DecidableEq, Repr

/-- `BF2I_SAT_TEST` (R6, D13): what BF.BF2I's saturation threshold 24 is compared with. -/
inductive SatTest where
  /-- the net shift: saturate when `E ≥ 158` -/
  | netShift
  /-- the unbiased exponent: saturate when `E ≥ 151` -/
  | unbiased
deriving DecidableEq, Repr

/-- `LN_ZERO_RESULT` (R6, R91): exponent field all ones, mantissa 0, and one of two signs. -/
inductive LnZero where
  /-- 0x7F800000 -/
  | signClear
  /-- 0xFF800000 -/
  | signSet
deriving DecidableEq, Repr

/-- The five words of the ln approximator's read-only storage (R23). -/
structure LnConsts where
  c0 : Word
  c1 : Word
  c2 : Word
  c3 : Word
  ln2 : Word
deriving DecidableEq, Repr

/-- Every parameter R6 lets a model take as an argument. -/
structure Params where
  packWrap : PackWrap
  negRound : NegRound
  satTest : SatTest
  lnZero : LnZero
  consts : LnConsts
deriving DecidableEq, Repr

/-- BF.LN's result for an operand outside its domain (R92: "any 32-bit value"), as a function of `A[31:16]`, the
only bits a bf16 operand has (R21, R25). No body: no proof can see a value of it.
DESIGN CHOICE, log entry 8 (that equal operands give equal values); log entry 9 (any 32 bits, not only canonical ones). -/
opaque Config.lnOutOfDomain : BitVec 16 → BitVec 32

end Sys2Proof
end

