-- ==== Sys2Proof/Machine/Params.lean ====
section
/-! DEFINITION. The spec's default for every parameter (00_scope.md R6; 10_state.md R23). -/

namespace Sys2Proof.Machine

/-- The five bf16 words of R23 (D12). -/
def defaultConsts : LnConsts :=
  { c0 := 0xBFBF0000#32, c1 := 0x40070000#32, c2 := 0xBF3B0000#32, c3 := 0x3DDF0000#32, ln2 := 0x3F310000#32 }

/-- R6's default column. -/
def defaultParams : Params :=
  { packWrap := .word32, negRound := .towardZero, satTest := .netShift, lnZero := .signClear, consts := defaultConsts }

end Sys2Proof.Machine
end

