-- ==== Sys2Proof/Syntax.lean ====
section
/-! DEFINITION. The ten operations (00_scope.md R4, 30_encoding.md R43), the ports they read and write
(10_state.md R18 to R20), the request a host presents (R42), what a host can do to the unit (R114), and the textual
request line (R48). -/

namespace Sys2Proof

/-- One constructor per row of spec/opcode_table.json. No operation has an operand field: operands are on the
ports (R42, R46). -/
inductive Instr where
  /-- BF.DECODE -/
  | decode
  /-- BF.ENCODE -/
  | encode
  /-- BF.F2BF -/
  | f2bf
  /-- BF.BF2F -/
  | bf2f
  /-- BF.I2BF -/
  | i2bf
  /-- BF.BF2I -/
  | bf2i
  /-- BF.ADD -/
  | add
  /-- BF.SUB -/
  | sub
  /-- BF.MUL -/
  | mul
  /-- BF.LN -/
  | ln
deriving DecidableEq, Repr

/-- The operand ports (R18). -/
inductive InPort where
  | a
  | b
  | sIn
  | eIn
  | mIn
deriving DecidableEq, Repr

/-- The result ports (R19). -/
inductive OutPort where
  | y
  | sOut
  | eOut
  | mOut
deriving DecidableEq, Repr

/-- The ports an operation reads (R20), in the operand order of R48. -/
def Instr.reads : Instr → List InPort
  | .encode => [.sIn, .eIn, .mIn]
  | .add => [.a, .b]
  | .sub => [.a, .b]
  | .mul => [.a, .b]
  | .decode => [.a]
  | .f2bf => [.a]
  | .bf2f => [.a]
  | .i2bf => [.a]
  | .bf2i => [.a]
  | .ln => [.a]

/-- The ports an operation writes (R20). -/
def Instr.writes : Instr → List OutPort
  | .decode => [.sOut, .eOut, .mOut]
  | .encode => [.y]
  | .f2bf => [.y]
  | .bf2f => [.y]
  | .i2bf => [.y]
  | .bf2i => [.y]
  | .add => [.y]
  | .sub => [.y]
  | .mul => [.y]
  | .ln => [.y]

/-- What stands on the operand ports; `none`: the host does not drive the port (R26: "no value"). -/
structure InPorts where
  a : Option Word
  b : Option Word
  sIn : Option (BitVec 1)
  eIn : Option Word
  mIn : Option (BitVec 8)
deriving DecidableEq, Repr

/-- No operand port is driven. -/
def InPorts.idle : InPorts := { a := none, b := none, sIn := none, eIn := none, mIn := none }

/-- A request in the one format `OP4` (R42): the operation code and the operand ports. -/
structure Request where
  op : BitVec 4
  ports : InPorts
deriving DecidableEq, Repr

/-- The host's interactions with the unit (R114). -/
inductive HostEvent where
  /-- A request, left on the ports until the unit has dealt with it. -/
  | request (r : Request)
  /-- A request, with reset asserted before its response (R109). -/
  | requestThenReset (r : Request)
  /-- A reset with no request open. -/
  | reset
deriving DecidableEq, Repr

/-- The name of a value the host holds (R48), as characters. -/
abbrev HostName := List Char

/-- An operand of a textual request (R48). -/
inductive Operand where
  /-- a 32-bit hex literal -/
  | hex (w : Word)
  /-- a decimal integer -/
  | dec (n : Int)
  /-- a value the host holds -/
  | held (x : HostName)
deriving DecidableEq, Repr

/-- The left side of a textual request (R48): one name for `Y`, or a triple of names for BF.DECODE. -/
inductive ResultName where
  | single (x : HostName)
  | triple (s e m : HostName)
deriving DecidableEq, Repr

/-- A request in textual form, `<result> = <MNEMONIC> <operand>, ...` (R48). -/
structure RequestLine where
  result : ResultName
  instr : Instr
  operands : List Operand
deriving DecidableEq, Repr

end Sys2Proof
end

