-- ==== Sys2Proof/Decode.lean ====
section
/-! DEFINITION. The operation code port's 16 values (30_encoding.md R43 to R45), the encoder, and the mnemonics. -/

namespace Sys2Proof

/-- What an operation code selects (R45). -/
inductive Decoded where
  | op (i : Instr)
  /-- A reserved code (R44), by its number. -/
  | reserved (code : BitVec 4)
deriving DecidableEq, Repr

/-- A row of R43's table. -/
structure OpRow where
  code : BitVec 4
  instr : Instr
deriving DecidableEq, Repr

/-- The table of R43. -/
def opTable : List OpRow :=
  [⟨0x0#4, .decode⟩, ⟨0x1#4, .encode⟩, ⟨0x2#4, .f2bf⟩, ⟨0x3#4, .bf2f⟩, ⟨0x4#4, .i2bf⟩,
   ⟨0x5#4, .bf2i⟩, ⟨0x6#4, .add⟩, ⟨0x7#4, .sub⟩, ⟨0x8#4, .mul⟩, ⟨0x9#4, .ln⟩]

/-- The operation of `code` in a table. -/
def findOp (code : BitVec 4) : List OpRow → Option Instr
  | [] => none
  | row :: rest => if row.code = code then some row.instr else findOp code rest

/-- Decoding `OP` is total, and no other field takes part (R45); a code with no row is reserved (R44). -/
def decode (code : BitVec 4) : Decoded :=
  match findOp code opTable with
  | some i => .op i
  | none => .reserved code

/-- The operation code of an operation (R43). -/
def encode : Instr → BitVec 4
  | .decode => 0b0000#4
  | .encode => 0b0001#4
  | .f2bf => 0b0010#4
  | .bf2f => 0b0011#4
  | .i2bf => 0b0100#4
  | .bf2i => 0b0101#4
  | .add => 0b0110#4
  | .sub => 0b0111#4
  | .mul => 0b1000#4
  | .ln => 0b1001#4

/-- The `OP` value in a number of `nbits` bits: OP4 has four bits, so any above them are no part of it (R42; the
opcode table's mask is 0xF). Log entry 14. -/
def opOfTableWord (nbits w : Nat) : BitVec 4 := BitVec.ofNat 4 (w % 2 ^ nbits)

/-- The instruction that a word of the opcode table decodes to. -/
def decodeTableWord (nbits w : Nat) : Option Instr :=
  match decode (opOfTableWord nbits w) with
  | .op i => some i
  | .reserved _ => none

/-- The mnemonic (R43), as characters. -/
def Instr.mnemonic : Instr → List Char
  | .decode => ['B', 'F', '.', 'D', 'E', 'C', 'O', 'D', 'E']
  | .encode => ['B', 'F', '.', 'E', 'N', 'C', 'O', 'D', 'E']
  | .f2bf => ['B', 'F', '.', 'F', '2', 'B', 'F']
  | .bf2f => ['B', 'F', '.', 'B', 'F', '2', 'F']
  | .i2bf => ['B', 'F', '.', 'I', '2', 'B', 'F']
  | .bf2i => ['B', 'F', '.', 'B', 'F', '2', 'I']
  | .add => ['B', 'F', '.', 'A', 'D', 'D']
  | .sub => ['B', 'F', '.', 'S', 'U', 'B']
  | .mul => ['B', 'F', '.', 'M', 'U', 'L']
  | .ln => ['B', 'F', '.', 'L', 'N']

end Sys2Proof
end

