-- ==== Sys2Proof/WellFormed.lean ====
section
/-! DEFINITION. The host's duties (70_reset_and_hazards.md R113) as checks on a request, and the form of a textual
request line (30_encoding.md R48). An `Instr` has no field, so every `Instr` is well formed. -/

namespace Sys2Proof

/-- The host drives port `p`. -/
def InPorts.driven (ports : InPorts) : InPort → Bool
  | .a => ports.a.isSome
  | .b => ports.b.isSome
  | .sIn => ports.sIn.isSome
  | .eIn => ports.eIn.isSome
  | .mIn => ports.mIn.isSome

/-- Every port that operation `i` reads is driven (R113's first duty). -/
def InPorts.drives (ports : InPorts) (i : Instr) : Bool := i.reads.all ports.driven

/-- The request has a defined operation code and drives every port that operation reads (R113, R114's first row). -/
def Request.wf (r : Request) : Bool :=
  match decode r.op with
  | .op i => r.ports.drives i
  | .reserved _ => false

/-- A request is well formed; a reset is always permitted (R114). -/
def HostEvent.wf : HostEvent → Bool
  | .request r => r.wf
  | .requestThenReset r => r.wf
  | .reset => true

/-- An ASCII letter, the first character of a host name. -/
def isLetter (c : Char) : Bool :=
  (decide (65 ≤ c.toNat) && decide (c.toNat ≤ 90)) || (decide (97 ≤ c.toNat) && decide (c.toNat ≤ 122))

/-- An ASCII digit. -/
def isDigit (c : Char) : Bool := decide (48 ≤ c.toNat) && decide (c.toNat ≤ 57)

/-- A host name: a letter, then letters and digits (R48's `v0`, `s`, `e2`). Log entry 16. -/
def nameOk : HostName → Bool
  | [] => false
  | c :: cs => isLetter c && cs.all fun d => isLetter d || isDigit d

/-- A decimal operand is an int32, and a name is a host name. R48 gives a decimal for `E_IN`, `S_IN`, `M_IN` and an int32
`A`; that one is taken on every port is a DESIGN CHOICE, log entry 16. -/
def Operand.wf : Operand → Bool
  | .hex _ => true
  | .dec n => decide (-2 ^ 31 ≤ n) && decide (n < 2 ^ 31)
  | .held x => nameOk x

/-- The result's form fits the operation (R48's result column) and its names are host names. -/
def ResultName.fits : ResultName → Instr → Bool
  | .single x, i => nameOk x && decide (i ≠ .decode)
  | .triple s e m, i => nameOk s && nameOk e && nameOk m && decide (i = .decode)

/-- R48's table: the result's form, the number of operands, and each operand's form. The port an operand goes to does not
restrict its form: a decimal is taken on a bf16 or fp32 `A` or `B` too, where R48 gives it no meaning. DESIGN CHOICE, log
entry 16. -/
def RequestLine.wf (l : RequestLine) : Bool :=
  l.result.fits l.instr && decide (l.operands.length = l.instr.reads.length) && l.operands.all Operand.wf

end Sys2Proof
end

