-- ==== Sys2Proof/Machine/State.lean ====
section
/-! DEFINITION. What the unit holds and what stands on its ports (10_state.md), the ways a step can stop, and the
machine after reset (R26). -/

namespace Sys2Proof.Machine

/-- What stands on the result ports; `none`: the port carries no value (10_state.md R20, R26). -/
structure OutPorts where
  y : Option Word
  sOut : Option (BitVec 1)
  eOut : Option Word
  mOut : Option (BitVec 8)
deriving DecidableEq, Repr

/-- The ports, the design-time parameters, what the host does next, and the responses given so far.
The unit has no register, flag, program counter or memory (R15 to R17, R28). -/
structure State where
  /-- Fixed at design time; no step writes it (R17, R23). Log entry 7. -/
  params : Params
  /-- Port `OP` (R18). -/
  op : Option (BitVec 4)
  /-- Ports `A`, `B`, `S_IN`, `E_IN`, `M_IN` (R18). -/
  inp : InPorts
  /-- Ports `Y`, `S_OUT`, `E_OUT`, `M_OUT` (R19). -/
  out : OutPorts
  /-- What the host does next, first event first (R33, R114). The model's own, log entry 1. -/
  events : List HostEvent
  /-- The responses given so far, oldest first (R33). The model's own, log entry 13. -/
  responses : List OutPorts
deriving DecidableEq, Repr

/-- No operation faults: 60_exceptions.md R95 ("No operation raises a synchronous exception"). -/
inductive Fault where
deriving DecidableEq, Repr

/-- Why a step gives no meaning to a request. -/
inductive Refusal where
  /-- Raised by an arm of `exec` that has no meaning yet. Safe. -/
  | notModelled (mnemonic : String)
  /-- Raised by `serve` for a reserved operation code; it is R97's mark on the run. Safe: the spec refuses the request. -/
  | reservedOp (code : BitVec 4)
  /-- Raised by a meaning that reads a port the host does not drive; R113: "no claim". Safe. Log entry 3. -/
  | portNotDriven (port : InPort)
deriving DecidableEq, Repr

/-- No result port carries a value. -/
def OutPorts.silent : OutPorts := { y := none, sOut := none, eOut := none, mOut := none }

/-- R26: no port has a value, and the constants are fixed. Nothing has been presented and nothing answered. -/
def State.reset : State :=
  { params := defaultParams, op := none, inp := InPorts.idle, out := OutPorts.silent, events := [], responses := [] }

end Sys2Proof.Machine
end

