-- ==== Sys2Proof/Machine/Ops.lean ====
section
/-! DEFINITION. The shared operations: what the host's actions do to the ports, giving a response, and the codec's
helpers (40_codec.md R51 to R54) with the normalizing steps of R60, R68 and R78. The unit takes no exception and
returns from none (60_exceptions.md R101), and it has no memory (20_memory.md R28). -/

namespace Sys2Proof.Machine

/-! ## Ports -/

/-- The host drives the ports with a request; all are sampled together (R18, R32). -/
def State.present (s : State) (r : Request) (rest : List HostEvent) : State :=
  { s with op := some r.op, inp := r.ports, events := rest }

/-- Reset: no port has a value (R26); the parameters, the responses already given and what the host does next stay
(R108, R109). Log entry 5. -/
def State.resetUnit (s : State) (rest : List HostEvent) : State :=
  { s with op := none, inp := InPorts.idle, out := OutPorts.silent, events := rest }

/-- Give the one response to the request on the ports (R33): the ports it writes, and no other, carry a value (R20). -/
def State.respond (s : State) (o : OutPorts) : State :=
  { s with out := o, responses := s.responses ++ [o] }

/-- A response on `Y` (R19, R20). -/
def OutPorts.word (y : Word) : OutPorts := { y := some y, sOut := none, eOut := none, mOut := none }

/-- A response on `S_OUT`, `E_OUT`, `M_OUT` (R19, R20). -/
def OutPorts.triple (s : BitVec 1) (e : Word) (m : BitVec 8) : OutPorts :=
  { y := none, sOut := some s, eOut := some e, mOut := some m }

/-! ## Words with a name (30_encoding.md R50) -/

/-- Sign 0, exponent field 0, mantissa 0. -/
def canonicalZero : Word := 0x00000000#32

/-- Sign 1, exponent field 0, mantissa 0. -/
def negativeZero : Word := 0x80000000#32

/-- `INT_SAT`, BF.BF2I's saturation value. -/
def intSat : Word := 0x7FFFFFFF#32

/-! ## Fields of a bf16 container -/

/-- `w[31:16]`, all that a bf16 operand has (R21, R37). -/
def upperHalf (w : Word) : BitVec 16 := w.extractLsb' 16 16

/-- `w & 0xFFFF0000`. -/
def clearLow (w : Word) : Word := w &&& 0xFFFF0000#32

/-- Sign, biased exponent and stored mantissa (R37). -/
structure Fields where
  s : BitVec 1
  e : BitVec 8
  f : BitVec 7
deriving DecidableEq, Repr

/-- R51; `w[15:0]` is ignored. -/
def fieldsOf (w : Word) : Fields :=
  { s := w.extractLsb' 31 1, e := w.extractLsb' 23 8, f := w.extractLsb' 16 7 }

/-- A decoded triple (R40): sign, unbiased exponent, significand. -/
structure Triple where
  s : BitVec 1
  e : Int
  m : Nat
deriving DecidableEq, Repr

/-- The unbiased exponent `E − 127` (R37). -/
def unbias (e : BitVec 8) : Int := (e.toNat : Int) - 127

/-- `0x80 | f`, the significand with the implicit bit (R37). -/
def significand (f : BitVec 7) : BitVec 8 := 0x80#8 ||| f.setWidth 8

/-- The word whose low bits hold `e + 127`, before the shift by 23 (R52, `PACK_WRAP`). -/
def biasedBits : PackWrap → Int → Word
  | .word32, e => u32 (e + 127)
  | .mask8, e => u32 (e + 127) &&& 0xFF#32

/-- R52: build a bf16 word from a triple, on a 32-bit word. -/
def pack (wrap : PackWrap) (s : BitVec 1) (e : Int) (m : Nat) : Word :=
  (s.setWidth 32 <<< 31) ||| (biasedBits wrap e <<< 23) ||| ((BitVec.ofNat 32 m &&& 0x7F#32) <<< 16)

/-- R53: exponent field and stored mantissa are both zero, whatever the sign. -/
def isZeroBF (w : Word) : Bool := decide (w.extractLsb' 16 15 = 0#15)

/-- R54: the triple ADD, SUB and MUL use; a zero operand has significand 0. -/
def opnd (w : Word) : Triple :=
  { s := (fieldsOf w).s
    e := unbias (fieldsOf w).e
    m := if isZeroBF w then 0 else (significand (fieldsOf w).f).toNat }

/-! ## Sign and magnitude -/

/-- The sign is applied to a magnitude (R68 step 3). -/
def signed (s : BitVec 1) (m : Nat) : Int := if s = 1#1 then -(m : Int) else m

/-- The sign of an integer (R60; R68 step 4): 0 for zero. -/
def intSign (x : Int) : BitVec 1 := if x < 0 then 1#1 else 0#1

/-! ## Normalizing -/

/-- A magnitude with its exponent, between two steps of a datapath (R24: wires). -/
structure Scaled where
  mag : Nat
  e : Int
deriving DecidableEq, Repr

/-- `while mag < 0x80: mag = mag << 1; e = e - 1`, at most `fuel` times (R60, R68 step 6). For a non-zero magnitude
seven are enough (R72). -/
def shiftUp : Nat → Scaled → Scaled
  | 0, x => x
  | fuel + 1, x => if x.mag < 0x80 then shiftUp fuel { mag := x.mag <<< 1, e := x.e - 1 } else x

/-- `while mag >= 0x100: mag = mag >> 1; e = e + 1`, at most `fuel` times (R60). For a magnitude up to 2^31, 24 are
enough (R61). -/
def shiftDown : Nat → Scaled → Scaled
  | 0, x => x
  | fuel + 1, x => if 0x100 ≤ x.mag then shiftDown fuel { mag := x.mag >>> 1, e := x.e + 1 } else x

/-- The carry normalization of ADD, SUB (R68 step 5) and MUL (R78): one step is enough (R72, R80). -/
def carryStep (x : Scaled) : Scaled :=
  if 0x100 ≤ x.mag then { mag := x.mag >>> 1, e := x.e + 1 } else x

end Sys2Proof.Machine
end

