-- ==== Sys2Proof/Machine/Operands.lean ====
section
/-! DEFINITION. Reading the operand ports (10_state.md R18, R20; 30_encoding.md R46). A port that the host does not
drive has no value, and a request that needs it is one about which nothing is claimed (70_reset_and_hazards.md R113). -/

namespace Sys2Proof.Machine

/-- The three outcomes, for this machine. -/
abbrev Result := Host.Outcome State Fault Refusal

/-- Go on with the value on a port, or refuse by the port's name. DEDUCED from R113, log entry 3. -/
def withPort {α : Type} (value : Option α) (port : InPort) (k : α → Result) : Result :=
  match value with
  | some v => k v
  | none => .refused (.portNotDriven port)

/-- The shape of every operation that reads `A` alone: one response computed from it. -/
def answerFromA (s : State) (f : Word → OutPorts) : Result :=
  withPort s.inp.a .a fun a => .next (s.respond (f a))

/-- The shape of every operation that reads `A` and `B`. -/
def answerFromAB (s : State) (f : Word → Word → OutPorts) : Result :=
  withPort s.inp.a .a fun a => withPort s.inp.b .b fun b => .next (s.respond (f a b))

/-- The shape of BF.ENCODE, which reads `S_IN`, `E_IN` and `M_IN`. -/
def answerFromTriple (s : State) (f : BitVec 1 → Word → BitVec 8 → OutPorts) : Result :=
  withPort s.inp.sIn .sIn fun sg => withPort s.inp.eIn .eIn fun e => withPort s.inp.mIn .mIn fun m =>
    .next (s.respond (f sg e m))

end Sys2Proof.Machine
end

