-- ==== Sys2Proof/Machine/Adder.lean ====
section
/-! DEFINITION. bf16_adder_subtractor (41_adder_subtractor.md): BF.ADD and BF.SUB over one datapath (R68). -/

namespace Sys2Proof.Machine

/-- Both significands at one exponent (R68 step 2). -/
structure Aligned where
  e : Int
  ma : Nat
  mb : Nat
deriving DecidableEq, Repr

/-- R68 step 2: the significand with the smaller exponent is shifted right by the difference. -/
def align (x y : Triple) : Aligned :=
  if y.e < x.e then { e := x.e, ma := x.m, mb := y.m >>> (x.e - y.e).toNat }
  else if x.e < y.e then { e := y.e, ma := x.m >>> (y.e - x.e).toNat, mb := y.m }
  else { e := x.e, ma := x.m, mb := y.m }

/-- R68 step 3: signs after alignment (R69), the second operand negated once more to subtract, then the sum `t`. -/
def signedSum (x y : Triple) (neg : Bool) : Int :=
  signed x.s (align x y).ma + (if neg then -(signed y.s (align x y).mb) else signed y.s (align x y).mb)

/-- R68 step 6: an exact cancellation is canonical zero, otherwise shift left until the leading bit is in bit 7. -/
def cancelStep (x : Scaled) : Scaled :=
  if x.mag = 0 then { mag := 0, e := -127 } else shiftUp 7 x

/-- R68 steps 4 to 6 on the sum `t` at exponent `e`. -/
def normalizeSum (t : Int) (e : Int) : Scaled := cancelStep (carryStep { mag := t.natAbs, e := e })

/-- R68 steps 4 to 7. -/
def packSum (wrap : PackWrap) (t : Int) (e : Int) : Word :=
  pack wrap (intSign t) (normalizeSum t e).e (normalizeSum t e).mag

/-- R68. -/
def addsub (p : Params) (a b : Word) (neg : Bool) : Word :=
  packSum p.packWrap (signedSum (opnd a) (opnd b) neg) (align (opnd a) (opnd b)).e

/-- BF.ADD (R70). -/
def execAdd (s : State) : Result := answerFromAB s fun a b => .word (addsub s.params a b false)

/-- BF.SUB (R71). -/
def execSub (s : State) : Result := answerFromAB s fun a b => .word (addsub s.params a b true)

end Sys2Proof.Machine
end

