-- ==== Sys2Proof/Machine/Codec.lean ====
section
/-! DEFINITION. bf16_codec (40_codec.md): BF.DECODE, BF.ENCODE, BF.F2BF, BF.BF2F, BF.I2BF, BF.BF2I. -/

namespace Sys2Proof.Machine

/-! ## Functions on words -/

/-- R55: the implicit bit is forced on, also for zero. -/
def decodedTriple (a : Word) : OutPorts :=
  .triple (fieldsOf a).s (u32 (unbias (fieldsOf a).e)) (significand (fieldsOf a).f)

/-- R56. -/
def encodedWord (p : Params) (s : BitVec 1) (e : Word) (m : BitVec 8) : Word :=
  pack p.packWrap s (s32 e) m.toNat

/-- Exponent field of an fp32 pattern (R38). -/
def fp32Exp (a : Word) : BitVec 8 := a.extractLsb' 23 8

/-- Fraction field of an fp32 pattern (R38). -/
def fp32Frac (a : Word) : BitVec 23 := a.extractLsb' 0 23

/-- A normal finite fp32 pattern (R38). -/
def fp32Normal (a : Word) : Bool := decide (fp32Exp a ≠ 0#8) && decide (fp32Exp a ≠ 255#8)

/-- R57, with the integer form R58 gives for a normal finite operand. -/
def fp32ToBf16 (a : Word) : Word :=
  if fp32Normal a then clearLow (a + 0x8000#32) else clearLow a

/-- R60: the two loops, from exponent 7. -/
def normalizeInt (n : Nat) : Scaled := shiftDown 24 (shiftUp 7 { mag := n, e := 7 })

/-- R60; `|−2^31|` is formed in ℤ, without overflow (D11). -/
def intToBf16 (p : Params) (a : Word) : Word :=
  if s32 a = 0 then canonicalZero
  else pack p.packWrap (intSign (s32 a)) (normalizeInt (s32 a).natAbs).e (normalizeInt (s32 a).natAbs).mag

/-- R62's net shift `(E − 127) − 7`. -/
def netShift (a : Word) : Int := unbias (fieldsOf a).e - 7

/-- R62's saturation test, by `BF2I_SAT_TEST` (R6, D13). -/
def saturates : SatTest → Word → Bool
  | .netShift, a => decide (24 ≤ netShift a)
  | .unbiased, a => decide (24 ≤ unbias (fieldsOf a).e)

/-- R62's magnitude: the significand shifted by the net shift. -/
def shiftedMag (a : Word) : Nat :=
  if 0 ≤ netShift a then (significand (fieldsOf a).f).toNat <<< (netShift a).toNat
  else (significand (fieldsOf a).f).toNat >>> (-netShift a).toNat

/-- `BF2I_NEG_ROUND = floor` (D14): the sign before the shift, so a negative non-integer goes toward −∞. Negative zero
is an integer and stays 0 (R41, R62). DEDUCED, log entry 10. -/
def flooredNeg (a : Word) : Int :=
  if isZeroBF a then 0
  else if 0 ≤ netShift a then -((significand (fieldsOf a).f).toNat <<< (netShift a).toNat : Nat)
  else (-((significand (fieldsOf a).f).toNat : Int)) >>> (-netShift a).toNat

/-- R62, with the sign after the shift (`toward_zero`) or before it (`floor`). -/
def bf16ToInt (p : Params) (a : Word) : Word :=
  if upperHalf a = 0#16 then 0#32
  else if saturates p.satTest a then intSat
  else if (fieldsOf a).s = 0#1 then u32 (shiftedMag a)
  else match p.negRound with
    | .towardZero => u32 (-(shiftedMag a : Int))
    | .floor => u32 (flooredNeg a)

/-! ## Meanings -/

/-- BF.DECODE (R55). -/
def execDecode (s : State) : Result := answerFromA s decodedTriple

/-- BF.ENCODE (R56). -/
def execEncode (s : State) : Result := answerFromTriple s fun sg e m => .word (encodedWord s.params sg e m)

/-- BF.F2BF (R57, R58). -/
def execF2bf (s : State) : Result := answerFromA s fun a => .word (fp32ToBf16 a)

/-- BF.BF2F (R59). -/
def execBf2f (s : State) : Result := answerFromA s fun a => .word (clearLow a)

/-- BF.I2BF (R60). -/
def execI2bf (s : State) : Result := answerFromA s fun a => .word (intToBf16 s.params a)

/-- BF.BF2I (R62). -/
def execBf2i (s : State) : Result := answerFromA s fun a => .word (bf16ToInt s.params a)

end Sys2Proof.Machine
end

