-- ==== Sys2Proof/Machine/Multiplier.lean ====
section
/-! DEFINITION. bf16_multiplier (42_multiplier.md): BF.MUL. -/

namespace Sys2Proof.Machine

/-- R78: the product scaled back by 7 fraction bits, at the sum of the exponents. -/
def rawProduct (x y : Triple) : Scaled := { mag := (x.m * y.m) >>> 7, e := x.e + y.e }

/-- R78: a zero product has the canonical minimum exponent. -/
def zeroExponent (x : Scaled) : Scaled := if x.mag = 0 then { mag := 0, e := -127 } else x

/-- R78: the carry step, then the zero test. -/
def normalizeProduct (x y : Triple) : Scaled := zeroExponent (carryStep (rawProduct x y))

/-- R78. -/
def mulbf (p : Params) (a b : Word) : Word :=
  pack p.packWrap ((opnd a).s ^^^ (opnd b).s) (normalizeProduct (opnd a) (opnd b)).e
    (normalizeProduct (opnd a) (opnd b)).mag

/-- BF.MUL (R79). -/
def execMul (s : State) : Result := answerFromAB s fun a b => .word (mulbf s.params a b)

end Sys2Proof.Machine
end

