-- ==== Sys2Proof/Machine/Ln.lean ====
section
/-! DEFINITION. bf16_ln_approximator (43_ln_approximator.md): BF.LN. -/

namespace Sys2Proof.Machine

/-- The word of `LN_ZERO_RESULT` (R91, C2). -/
def lnZeroWord : LnZero → Word
  | .signClear => 0x7F800000#32
  | .signSet => 0xFF800000#32

/-- R85: a positive normal bf16 input. -/
def lnNormal (a : Word) : Bool :=
  decide ((fieldsOf a).s = 0#1) && decide ((fieldsOf a).e ≠ 0#8) && decide ((fieldsOf a).e ≠ 255#8)

/-- R87: the exponent of the masked input. -/
def lnExponent (a : Word) : Int := unbias ((clearLow a).extractLsb' 23 8)

/-- R88: the exponent field replaced by 127, sign and fraction kept. -/
def lnMantissa (a : Word) : Word := (clearLow a &&& 0x807F0000#32) ||| 0x3F800000#32

/-- One step of the cubic's evaluation: `c + t*m` through the multiplier and the adder (R86, R90). -/
def hornerStep (p : Params) (c t m : Word) : Word := addsub p c (mulbf p t m) false

/-- R90's steps 1 to 6. -/
def lnCubic (p : Params) (m : Word) : Word :=
  hornerStep p p.consts.c0 (hornerStep p p.consts.c1 (hornerStep p p.consts.c2 p.consts.c3 m) m) m

/-- R90's nine steps on a non-zero input: the cubic, then `+ ln2*e`. -/
def lnPolynomial (p : Params) (a : Word) : Word :=
  addsub p (lnCubic p (lnMantissa a)) (mulbf p p.consts.ln2 (intToBf16 p (u32 (lnExponent a)))) false

/-- R86 on the domain of R85; elsewhere any word (R92), log entries 8 and 9. -/
def lnWord (p : Params) (a : Word) : Word :=
  if clearLow a = 0#32 then lnZeroWord p.lnZero
  else if lnNormal a then lnPolynomial p a
  else Config.lnOutOfDomain (upperHalf a)

/-- BF.LN (R86, R92: it always gives a response). -/
def execLn (s : State) : Result := answerFromA s fun a => .word (lnWord s.params a)

end Sys2Proof.Machine
end

