-- ==== Sys2Proof/Machine/Dispatch.lean ====
section
/-! DEFINITION. Which meaning each operation has. -/

namespace Sys2Proof.Machine

def exec (i : Instr) (s : State) : Host.Outcome State Fault Refusal :=
  match i with
  | .decode => Sys2Proof.Machine.execDecode s
  | .encode => Sys2Proof.Machine.execEncode s
  | .f2bf => Sys2Proof.Machine.execF2bf s
  | .bf2f => Sys2Proof.Machine.execBf2f s
  | .i2bf => Sys2Proof.Machine.execI2bf s
  | .bf2i => Sys2Proof.Machine.execBf2i s
  | .add => Sys2Proof.Machine.execAdd s
  | .sub => Sys2Proof.Machine.execSub s
  | .mul => Sys2Proof.Machine.execMul s
  | .ln => Sys2Proof.Machine.execLn s

end Sys2Proof.Machine
end

