-- ==== Sys2Proof/Machine/Serve.lean ====
section
/-! DEFINITION. What the unit does with one thing the host does (70_reset_and_hazards.md R114). -/

namespace Sys2Proof.Machine

/-- Deal with the request on the ports: decode `OP` (R45) and run the operation, or refuse a reserved code (R97). With
no request on the ports there is nothing to do. -/
def serve (s : State) : Result :=
  match s.op with
  | none => .next s
  | some code =>
    match decode code with
    | .op i => exec i s
    | .reserved c => .refused (.reservedOp c)

/-- Reset caught the request before its response (R109): the response is not given and the unit is as after reset. A
request that would be refused stays refused. DESIGN CHOICE, log entry 6. -/
def abandon (s : State) (rest : List HostEvent) : Result → Result
  | .next _ => .next (s.resetUnit rest)
  | .fault f => .fault f
  | .refused q => .refused q

/-- Take the host's next event. One request is one step (R115), and with none nothing changes. Log entries 1 and 2. -/
def takeEvent (s : State) : Result :=
  match s.events with
  | [] => .next s
  | .request r :: rest => serve (s.present r rest)
  | .requestThenReset r :: rest => abandon s rest (serve (s.present r rest))
  | .reset :: rest => .next (s.resetUnit rest)

/-- A request with operand words of zeros. -/
def zeroRequest (code : BitVec 4) : Request :=
  { op := code, ports := { a := some 0#32, b := some 0#32, sIn := some 0#1, eIn := some 0#32, mIn := some 0#8 } }

/-- The host presents `r` next. -/
def State.pushRequest (s : State) (r : Request) : State := { s with events := .request r :: s.events }

end Sys2Proof.Machine
end

