-- ==== Sys2Proof/Machine/Step.lean ====
section
/-! DEFINITION. One step of the machine: one event of the host, one response (R33, R115). -/

namespace Sys2Proof.Machine

def step : State → Host.Outcome State Fault Refusal := takeEvent

/-- `s` with the request for the table's word presented next, its operand words zero. The unit loads no program
(R16, R35): this stands for the host's presenting a request. Log entry 11. -/
def State.withFetchWord (s : State) (nbits w : Nat) : State :=
  s.pushRequest (zeroRequest (opOfTableWord nbits w))

end Sys2Proof.Machine
end

