-- ==== Sys2Proof/Machine/Fp32.lean ====
section
/-! DEFINITION. BF.F2BF as 40_codec.md R57 describes it: the native float addition of a correction term, then
truncation. `fp32ToBf16` in Codec.lean is the integer form R58 gives and the one the unit runs; this file is what R58 is
about. The reading of fp32 patterns and the rounding are IEEE-754's (R38, R57 and G2, G4 of 93_implementation_defined.md,
"from general knowledge, not in source"): PRESUMED, log entry 15. -/

namespace Sys2Proof.Machine

/-- The magnitude of a finite fp32 pattern in units of 2^−149, the least subnormal. -/
def fp32Mag (a : Word) : Nat :=
  if fp32Exp a = 0#8 then (fp32Frac a).toNat
  else (0x800000 + (fp32Frac a).toNat) <<< ((fp32Exp a).toNat - 1)

/-- The value of a finite fp32 pattern in units of 2^−149. -/
def fp32Value (a : Word) : Int := signed (a.extractLsb' 31 1) (fp32Mag a)

/-- `n / 2^k` rounded to the nearest integer, a tie to the even one. -/
def roundShift (n k : Nat) : Nat :=
  if 2 * (n % 2 ^ k) < 2 ^ k then n >>> k
  else if 2 ^ k < 2 * (n % 2 ^ k) then n >>> k + 1
  else n >>> k + (n >>> k) % 2

/-- The pattern, without its sign, of a magnitude in units of 2^−149 rounded to 24 significant bits; exponent field 255
and fraction 0 when the rounded magnitude is 2^128 or more. A significand that rounds up to 2^24 carries into the
exponent field. -/
def fp32MagBits (n : Nat) : Nat :=
  if n < 0x800000 then n
  else min ((Nat.log2 n - 23) <<< 23 + roundShift n (Nat.log2 n - 23)) 0x7F800000

/-- The pattern of a value in units of 2^−149, rounded to nearest even; a zero has the sign given. -/
def fp32Round (zeroSign : BitVec 1) (v : Int) : Word :=
  ((if v = 0 then zeroSign else intSign v).setWidth 32 <<< 31) ||| BitVec.ofNat 32 (fp32MagBits v.natAbs)

/-- Native addition of two finite fp32 patterns. An exact zero sum is +0, but −0 when both operands are −0. -/
def fp32Add (a b : Word) : Word :=
  fp32Round (a.extractLsb' 31 1 &&& b.extractLsb' 31 1) (fp32Value a + fp32Value b)

/-- Native division of a finite fp32 pattern by 256. R57 uses it on a normal power of two, where it is exact. -/
def fp32Div256 (a : Word) : Word :=
  (a &&& 0x80000000#32) ||| BitVec.ofNat 32 (fp32MagBits (roundShift (fp32Mag a) 8))

/-- R57's `r`: the sign and exponent of `A` with a zero fraction, divided by 256. -/
def correction (a : Word) : Word := fp32Div256 (a &&& 0xFF800000#32)

/-- R57's pseudocode. -/
def fp32ToBf16Native (a : Word) : Word :=
  if (fp32Exp a = 0#8 ∧ fp32Frac a = 0#23) ∨ fp32Exp a = 255#8 then clearLow a
  else if fp32Exp a = 0#8 then clearLow a
  else clearLow (fp32Add a (correction a))

end Sys2Proof.Machine
end

