-- ==== Sys2Proof/Machine/Text.lean ====
section
/-! DEFINITION. The textual form of a request (30_encoding.md R48): written, read, turned into the request the host
presents, and the values the host then holds. The unit sees only the request. Spacing, letter case, digits, the form of
names and a name bound more than once are log entry 16. -/

namespace Sys2Proof.Machine

/-! ## Numbers as digits -/

/-- The digit characters, least first. -/
def digitChars : List Char := ['0', '1', '2', '3', '4', '5', '6', '7', '8', '9', 'A', 'B', 'C', 'D', 'E', 'F']

/-- The character of a digit below 16. -/
def digitChar (d : Nat) : Char := digitChars.getD d '0'

/-- The value of a digit character in a base up to 16. -/
def digitValue (base : Nat) (c : Char) : Option Nat :=
  let v := if isDigit c then c.toNat - 48
    else if 65 ≤ c.toNat ∧ c.toNat ≤ 70 then c.toNat - 55
    else if 97 ≤ c.toNat ∧ c.toNat ≤ 102 then c.toNat - 87
    else base
  if v < base then some v else none

/-- Exactly `k` digits of `n`, most significant first. -/
def fixedDigits (base : Nat) : Nat → Nat → List Char
  | 0, _ => []
  | k + 1, n => fixedDigits base k (n / base) ++ [digitChar (n % base)]

/-- The digits of `n` with no leading zero, at most `k + 1` of them. -/
def digits (base : Nat) : Nat → Nat → List Char
  | 0, n => [digitChar (n % base)]
  | k + 1, n => if n < base then [digitChar n] else digits base k (n / base) ++ [digitChar (n % base)]

/-- The value of digits read after those whose value is `acc`. -/
def readDigits (base : Nat) : Nat → List Char → Option Nat
  | acc, [] => some acc
  | acc, c :: cs =>
    match digitValue base c with
    | some d => readDigits base (acc * base + d) cs
    | none => none

/-- The value of one digit or more. -/
def readNumber (base : Nat) : List Char → Option Nat
  | [] => none
  | c :: cs => readDigits base 0 (c :: cs)

/-! ## Writing a request line -/

/-- An operand (R48): 32-bit hex, decimal, or a name. -/
def Operand.text : Operand → List Char
  | .hex w => ['0', 'x'] ++ fixedDigits 16 8 w.toNat
  | .dec n => if n < 0 then '-' :: digits 10 10 n.natAbs else digits 10 10 n.natAbs
  | .held x => x

/-- Pieces with a separator between them. -/
def joinWith (sep : List Char) : List (List Char) → List Char
  | [] => []
  | [x] => x
  | x :: y :: rest => x ++ sep ++ joinWith sep (y :: rest)

/-- The left side (R48). -/
def ResultName.text : ResultName → List Char
  | .single x => x
  | .triple s e m => ['('] ++ joinWith [',', ' '] [s, e, m] ++ [')']

/-- R48: `<result> = <MNEMONIC> <operand>, <operand>, ...`. -/
def RequestLine.text (l : RequestLine) : List Char :=
  ResultName.text l.result ++ [' ', '=', ' '] ++ l.instr.mnemonic ++ [' '] ++
    joinWith [',', ' '] (l.operands.map Operand.text)

/-! ## Reading a request line -/

/-- The pieces between occurrences of a separator. -/
def splitAtChar (sep : Char) : List Char → List (List Char)
  | [] => [[]]
  | c :: cs =>
    if c = sep then [] :: splitAtChar sep cs
    else match splitAtChar sep cs with
      | [] => [[c]]
      | p :: ps => (c :: p) :: ps

/-- The part before the first separator and the part after it. -/
def cutAtChar (sep : Char) : List Char → Option (List Char × List Char)
  | [] => none
  | c :: cs =>
    if c = sep then some ([], cs)
    else match cutAtChar sep cs with
      | some (p, rest) => some (c :: p, rest)
      | none => none

/-- Drop every space. -/
def noSpaces (cs : List Char) : List Char := cs.filter fun c => c ≠ ' '

/-- Drop leading spaces. -/
def dropSpaces : List Char → List Char
  | [] => []
  | c :: cs => if c = ' ' then dropSpaces cs else c :: cs

/-- An int32 in decimal. -/
def decOperand (n : Int) : Option Operand :=
  if -2 ^ 31 ≤ n ∧ n < 2 ^ 31 then some (.dec n) else none

/-- An operand, its spaces already dropped, inner ones too. Leading zeros are free, hex starts with `0x`, the minus sign is
the ASCII one and there is no plus sign. DESIGN CHOICE, log entry 16. -/
def readOperand (cs : List Char) : Option Operand :=
  match cs with
  | '0' :: 'x' :: ds =>
    match readNumber 16 ds with
    | some n => if n < 2 ^ 32 then some (.hex (BitVec.ofNat 32 n)) else none
    | none => none
  | '-' :: ds =>
    match readNumber 10 ds with
    | some n => decOperand (-(n : Int))
    | none => none
  | ds =>
    match readNumber 10 ds with
    | some n => decOperand n
    | none => if nameOk ds then some (.held ds) else none

/-- Every piece read, or none at all. -/
def readOperands : List (List Char) → Option (List Operand)
  | [] => some []
  | p :: ps =>
    match readOperand p, readOperands ps with
    | some o, some os => some (o :: os)
    | _, _ => none

/-- The left side, its spaces already dropped, inner ones too (log entry 16). -/
def readResult (cs : List Char) : Option ResultName :=
  match cs with
  | '(' :: rest =>
    match splitAtChar ',' rest with
    | [s, e, m] =>
      match cutAtChar ')' m with
      | some (m', []) => some (.triple s e m')
      | _ => none
    | _ => none
  | x => some (.single x)

/-- The operation with a mnemonic, from R43's table. -/
def instrOfMnemonic (cs : List Char) : List OpRow → Option Instr
  | [] => none
  | row :: rest => if row.instr.mnemonic = cs then some row.instr else instrOfMnemonic cs rest

/-- Read a request line; `none` when it is not of R48's form. R48 is silent on spacing. The model drops every space of the
left side and of the operand list, those inside a literal, after a minus sign or inside a name among them, so that
`0x3F9A 0000` is the literal `0x3F9A0000`: DESIGN CHOICE, log entry 16. -/
def readLine (cs : List Char) : Option RequestLine :=
  match cutAtChar '=' cs with
  | none => none
  | some (left, right) =>
    match cutAtChar ' ' (dropSpaces right) with
    | none => none
    | some (name, args) =>
      match readResult (noSpaces left), instrOfMnemonic name opTable,
          readOperands (splitAtChar ',' (noSpaces args)) with
      | some r, some i, some os =>
        if RequestLine.wf { result := r, instr := i, operands := os } then
          some { result := r, instr := i, operands := os }
        else none
      | _, _, _ => none

/-! ## The request a line presents, and the values the host holds after it -/

/-- The values the host holds, newest first (R48). They are the host's, not the unit's (R15). -/
abbrev HostEnv := List (HostName × Word)

/-- The value under a name. R48 is silent on a name bound more than once; the model lets the newest binding win: DESIGN
CHOICE, log entry 16. -/
def heldValue : HostEnv → HostName → Option Word
  | [], _ => none
  | (y, w) :: rest, x => if y = x then some w else heldValue rest x

/-- The word of an operand (R48). A decimal integer is its two's complement word on every port, a bf16 or fp32 `A` or `B`
among them, where R48 gives a decimal no meaning: DESIGN CHOICE, log entry 16. -/
def operandWord (env : HostEnv) : Operand → Option Word
  | .hex w => some w
  | .dec n => some (u32 n)
  | .held x => heldValue env x

/-- Drive one port with a word; a word too large for the port's width (R18) cannot be presented: DESIGN CHOICE, log
entry 16. -/
def drivePort (ports : InPorts) (w : Word) : InPort → Option InPorts
  | .a => some { ports with a := some w }
  | .b => some { ports with b := some w }
  | .eIn => some { ports with eIn := some w }
  | .sIn => if w.toNat < 2 then some { ports with sIn := some (w.setWidth 1) } else none
  | .mIn => if w.toNat < 256 then some { ports with mIn := some (w.setWidth 8) } else none

/-- Drive the ports an operation reads with its operands, in order (R48's table). -/
def driveOperands (env : HostEnv) : InPorts → List InPort → List Operand → Option InPorts
  | ports, [], [] => some ports
  | ports, port :: rest, o :: os =>
    match operandWord env o with
    | some w =>
      match drivePort ports w port with
      | some ports' => driveOperands env ports' rest os
      | none => none
    | none => none
  | _, _, _ => none

/-- The request a line presents (R42, R48); none when an operand is a name under which nothing is held (DESIGN CHOICE, log
entry 16) or a word its port cannot take. -/
def lineRequest (env : HostEnv) (l : RequestLine) : Option Request :=
  match driveOperands env InPorts.idle l.instr.reads l.operands with
  | some ports => some { op := encode l.instr, ports := ports }
  | none => none

/-- The values the host holds once it has the response: only ports that carry a value are read (R113). R48 is silent on a
name bound more than once and on the width of a held value. In a triple the model binds `S_OUT`, then `E_OUT`, then `M_OUT`,
so that under one name used twice `M_OUT` is found before `E_OUT` and `E_OUT` before `S_OUT`, each before an older value of
that name, and it extends `S_OUT` and `M_OUT` with zeros: DESIGN CHOICE, log entry 16. -/
def bindResult (env : HostEnv) (o : OutPorts) : ResultName → Option HostEnv
  | .single x =>
    match o.y with
    | some y => some ((x, y) :: env)
    | none => none
  | .triple s e m =>
    match o.sOut, o.eOut, o.mOut with
    | some sv, some ev, some mv => some ((m, mv.setWidth 32) :: (e, ev) :: (s, sv.setWidth 32) :: env)
    | _, _, _ => none

end Sys2Proof.Machine
end

