-- ==== Sys2Proof/Safety.lean ====
section
/-! DEFINITION. What counts as a safe run, the invariant of every run, and the terms claims are stated in. -/

namespace Sys2Proof

open Machine

/-! ## Safe runs -/

/-- The host keeps its duties in everything it is about to do (70_reset_and_hazards.md R113, R114). -/
def dutiful (s : State) : Bool := s.events.all HostEvent.wf

/-- A response is one of R20's two kinds: `Y` alone, or the triple, whose fields are in R19's ranges. -/
def Machine.OutPorts.legal (o : OutPorts) : Prop :=
  (∃ y, o = .word y) ∨
    ∃ s e m, o = .triple s e m ∧ -127 ≤ s32 e ∧ s32 e ≤ 128 ∧ 0x80 ≤ m.toNat

/-- Every response given is legal, and the result ports carry nothing or the last response. -/
structure Machine.State.Inv (s : State) : Prop where
  legal : ∀ o ∈ s.responses, o.legal
  ports : s.out = OutPorts.silent ∨ s.responses.getLast? = some s.out

/-! ## Ports -/

/-- Port `q` carries a value in this response (R20). -/
def Machine.OutPorts.carries (o : OutPorts) : OutPort → Bool
  | .y => o.y.isSome
  | .sOut => o.sOut.isSome
  | .eOut => o.eOut.isSome
  | .mOut => o.mOut.isSome

/-- The two sets of operand ports agree at one port. -/
def InPorts.agreeAt (p q : InPorts) : InPort → Prop
  | .a => p.a = q.a
  | .b => p.b = q.b
  | .sIn => p.sIn = q.sIn
  | .eIn => p.eIn = q.eIn
  | .mIn => p.mIn = q.mIn

/-- The two sets of operand ports agree at every port that `i` reads (R20). -/
def InPorts.agreeFor (p q : InPorts) (i : Instr) : Prop := ∀ port ∈ i.reads, p.agreeAt q port

/-- `s` with these two words on `A` and `B`. -/
def Machine.State.driveAB (s : State) (a b : Word) : State :=
  { s with inp := { s.inp with a := some a, b := some b } }

/-- The word that operation `i` answers on `Y` with `a` and `b` on ports `A` and `B`; `none` when it answers none. -/
def answerOnY (i : Instr) (s : State) (a b : Word) : Option Word :=
  match exec i (s.driveAB a b) with
  | .next t => t.out.y
  | .fault _ => none
  | .refused _ => none

/-! ## Runs -/

/-- What a unit with these parameters answers to `r` as its first request after reset (R110). -/
def freshAnswer (p : Params) (r : Request) : List OutPorts :=
  match step { State.reset with params := p, events := [.request r] } with
  | .next t => t.responses
  | .fault _ => []
  | .refused _ => []

/-- The responses due to one thing the host does: one to a request, none to a request that reset abandons (R109). -/
def answersDue (p : Params) : HostEvent → List OutPorts
  | .request r => freshAnswer p r
  | .requestThenReset _ => []
  | .reset => []

/-- A request on `A` and `B` only. -/
def requestAB (i : Instr) (a b : Word) : HostEvent :=
  .request { op := encode i, ports := { InPorts.idle with a := some a, b := some b } }

/-- A request on `A` only. -/
def requestA (i : Instr) (a : Word) : HostEvent :=
  .request { op := encode i, ports := { InPorts.idle with a := some a } }

/-- The results of the nine steps of R90, by its names. -/
structure LnTrace where
  p1 : Word
  t1 : Word
  p2 : Word
  t2 : Word
  p3 : Word
  t3 : Word
  eb : Word
  p4 : Word
  y : Word

/-- R90's nine steps as nine requests of a host that presents each result again where the next step needs it
(95_test_vectors.md program P2). -/
def lnProgram (c : LnConsts) (m e : Word) (r : LnTrace) : List HostEvent :=
  [requestAB .mul c.c3 m, requestAB .add c.c2 r.p1, requestAB .mul r.t1 m, requestAB .add c.c1 r.p2,
   requestAB .mul r.t2 m, requestAB .add c.c0 r.p3, requestA .i2bf e, requestAB .mul c.ln2 r.eb,
   requestAB .add r.t3 r.p4]

/-- The nine responses of R90, in order. -/
def LnTrace.words (r : LnTrace) : List Word := [r.p1, r.t1, r.p2, r.t2, r.p3, r.t3, r.eb, r.p4, r.y]

/-! ## Values -/

/-- The magnitude a bf16 pattern stands for (R11, R41): 0 for a zero, otherwise `(1 + f/128) · 2^(E − 127)`. -/
def bf16Mag (w : Word) : ℚ :=
  if isZeroBF w then 0 else (1 + ((fieldsOf w).f.toNat : ℚ) / 128) * (2 : ℚ) ^ (((fieldsOf w).e.toNat : ℤ) - 127)

/-- The number a bf16 pattern stands for (R11, R41). -/
def bf16Value (w : Word) : ℚ := if (fieldsOf w).s = 1#1 then -bf16Mag w else bf16Mag w

end Sys2Proof
end

