-- ==== Sys2Proof/Certificates/Slice0/Obligations.lean ====
section
/-! DEFINITION. The statements about the machine, for the provers. Each names the rule of spec/ it follows. -/

open Sys2Proof Sys2Proof.Machine

/-! ## Encodings -/

/-- 30_encoding.md R43: each operation's code and mnemonic. -/
def Obligations.OperationCodesFollowTheTable : Prop :=
  ∀ row ∈ [(0b0000#4, Instr.decode, "BF.DECODE"), (0b0001#4, Instr.encode, "BF.ENCODE"),
      (0b0010#4, Instr.f2bf, "BF.F2BF"), (0b0011#4, Instr.bf2f, "BF.BF2F"), (0b0100#4, Instr.i2bf, "BF.I2BF"),
      (0b0101#4, Instr.bf2i, "BF.BF2I"), (0b0110#4, Instr.add, "BF.ADD"), (0b0111#4, Instr.sub, "BF.SUB"),
      (0b1000#4, Instr.mul, "BF.MUL"), (0b1001#4, Instr.ln, "BF.LN")],
    decode row.1 = .op row.2.1 ∧ encode row.2.1 = row.1 ∧ String.ofList row.2.1.mnemonic = row.2.2

/-- 30_encoding.md R45: each of the 16 codes selects one operation or is reserved. -/
def Obligations.EveryCodeSelectsOneOperationOrIsReserved : Prop :=
  ∀ code : BitVec 4,
    (code.toNat < 10 → ∃ i, decode code = .op i ∧ ∀ j, encode j = code ↔ j = i) ∧
    (10 ≤ code.toNat → decode code = .reserved code ∧ ∀ j, encode j ≠ code)

/-- Decoding an operation's code gives the operation back (30_encoding.md §2). -/
def Obligations.DecodeOfEncodeIsTheOperation : Prop := ∀ i : Instr, decode (encode i) = .op i

/-- 30_encoding.md R48: a well-formed request line, written out and read again, is the same line, with every operand at
every value. Spacing and the form of names are the model's, log entry 16. -/
def Obligations.WrittenRequestLineReadsBack : Prop :=
  ∀ l : RequestLine, l.wf = true → readLine (RequestLine.text l) = some l

/-- 30_encoding.md R48's table: the operands of a line go to the ports in order. The width checks on `S_IN` and `M_IN`
are the model's, log entry 16. -/
def Obligations.LineOperandsGoToPortsInOrder : Prop :=
  (∀ env res i x, i.reads = [.a] →
    lineRequest env ⟨res, i, [x]⟩ =
      (operandWord env x).map fun w => ⟨encode i, { InPorts.idle with a := some w }⟩) ∧
  (∀ env res i x z, i.reads = [.a, .b] →
    lineRequest env ⟨res, i, [x, z]⟩ =
      (operandWord env x).bind fun w => (operandWord env z).map fun v =>
        ⟨encode i, { InPorts.idle with a := some w, b := some v }⟩) ∧
  (∀ env res x e m w v u, operandWord env x = some w → operandWord env e = some v → operandWord env m = some u →
    w.toNat < 2 → u.toNat < 256 →
    lineRequest env ⟨res, .encode, [x, e, m]⟩ =
      some ⟨encode .encode,
        { InPorts.idle with sIn := some (w.setWidth 1), eIn := some v, mIn := some (u.setWidth 8) }⟩)

/-! ## Steps -/

/-- A step takes the host's next request, drives the ports with it and runs the operation its code selects; it adds
nothing else. -/
def Obligations.StepRunsTheDecodedOperation : Prop :=
  ∀ (s : State) (r : Request) (rest : List HostEvent) (i : Instr),
    s.events = .request r :: rest → decode r.op = .op i →
      step s = exec i { s with op := some r.op, inp := r.ports, events := rest }

/-- With nothing presented, a step changes nothing (the model's choice, log entry 2). -/
def Obligations.IdleStepChangesNothing : Prop := ∀ s : State, s.events = [] → step s = .next s

/-- The port table, that a driven request is answered on the ports its row writes and no others, and that the answer is a
function of the ports its row reads (and the design-time parameters), and of nothing else (10_state.md §2, §3). For BF.LN
outside its domain that the answer is such a function is the model's choice, log entry 8: its free value is a function of
`A[31:16]`. -/
def Obligations.OperationsReadAndWriteOnlyTheirPorts : Prop :=
  (∀ i : Instr, (i, i.reads, i.writes) ∈
    [(.decode, [.a], [.sOut, .eOut, .mOut]), (.encode, [.sIn, .eIn, .mIn], [.y]), (.f2bf, [.a], [.y]),
     (.bf2f, [.a], [.y]), (.i2bf, [.a], [.y]), (.bf2i, [.a], [.y]), (.add, [.a, .b], [.y]), (.sub, [.a, .b], [.y]),
     (.mul, [.a, .b], [.y]), (.ln, [.a], [OutPort.y])]) ∧
  ∀ (i : Instr) (s : State), s.inp.drives i = true →
    ∃ o : OutPorts, exec i s = .next (s.respond o) ∧ (∀ q, o.carries q = true ↔ q ∈ i.writes) ∧
      ∀ s' : State, s'.params = s.params → s'.inp.agreeFor s.inp i → exec i s' = .next (s'.respond o)

/-- An operation that reads a port the host does not drive is refused, by the first such port in R48's order (DEDUCED
from 70_reset_and_hazards.md R113, log entry 3). -/
def Obligations.UndrivenPortIsRefused : Prop :=
  ∀ (i : Instr) (s : State) (p : InPort),
    i.reads.find? (fun q => !s.inp.driven q) = some p → exec i s = .refused (.portNotDriven p)

/-- The frame of every operation: the input ports, the parameters and what the host does next are unchanged, no earlier
response changes, and exactly one response is added, the one on the result ports. -/
def Obligations.OperationsChangeOnlyTheResponse : Prop :=
  ∀ (i : Instr) (s t : State), exec i s = .next t →
    t.params = s.params ∧ t.op = s.op ∧ t.inp = s.inp ∧ t.events = s.events ∧ t.responses = s.responses ++ [t.out]

/-- No step changes a parameter: the constants are fixed at design time (10_state.md R17, R23). -/
def Obligations.ParametersNeverChange : Prop := ∀ s t : State, step s = .next t → t.params = s.params

/-- `A[15:0]` and `B[15:0]` of a bf16 operand have no effect; for BF.F2BF and BF.I2BF the low half has one
(10_state.md §2). That BF.LN outside its domain answers equal upper halves equally is the model's choice, log entry 8: its
free value is a function of `A[31:16]`. -/
def Obligations.LowHalfOfBf16OperandIsIgnored : Prop :=
  (∀ i ∈ [Instr.decode, .bf2f, .bf2i, .add, .sub, .mul, .ln], ∀ (s : State) (a b a' b' : Word),
    upperHalf a = upperHalf a' → upperHalf b = upperHalf b' →
      ∃ o : OutPorts, exec i (s.driveAB a b) = .next ((s.driveAB a b).respond o) ∧
        exec i (s.driveAB a' b') = .next ((s.driveAB a' b').respond o)) ∧
  ∀ i ∈ [Instr.f2bf, .i2bf], ∀ (s : State) (b : Word), ∃ a a' : Word,
    upperHalf a = upperHalf a' ∧ answerOnY i s a b ≠ answerOnY i s a' b

/-- Every bf16 result is canonical, and BF.BF2F's result too (10_state.md §2); BF.LN on its domain only (log entry 9). -/
def Obligations.Bf16ResultsAreCanonical : Prop :=
  ∀ (i : Instr) (s t : State) (y : Word), exec i s = .next t → t.out.y = some y → i ≠ .bf2i →
    (i = .ln → ∀ a, s.inp.a = some a → lnNormal a = true ∨ upperHalf a = 0#16) → y.extractLsb' 0 16 = 0#16

/-! ## bf16_codec -/

/-- 40_codec.md R55. -/
def Obligations.DecodeAnswersTheFields : Prop :=
  ∀ (s : State) (a : Word), s.inp.a = some a →
    ∃ sg e m, exec .decode s = .next (s.respond (.triple sg e m)) ∧ sg.toNat = a.toNat / 2 ^ 31 ∧
      s32 e = (a.toNat / 2 ^ 23 % 2 ^ 8 : Nat) - 127 ∧ m.toNat = 0x80 + a.toNat / 2 ^ 16 % 2 ^ 7

/-- 40_codec.md R52, R56: field by field, with both values of `PACK_WRAP`. -/
def Obligations.EncodeAnswersThePackedTriple : Prop :=
  ∀ (s : State) (sg : BitVec 1) (e : Word) (m : BitVec 8),
    s.inp.sIn = some sg → s.inp.eIn = some e → s.inp.mIn = some m →
    ∃ y, exec .encode s = .next (s.respond (.word y)) ∧
      y.extractLsb' 23 8 = (e + 127#32).extractLsb' 0 8 ∧ y.extractLsb' 16 7 = m.extractLsb' 0 7 ∧
      y.extractLsb' 0 16 = 0#16 ∧
      (s.params.packWrap = .word32 → y.getLsbD 31 = (sg.getLsbD 0 || (e + 127#32).getLsbD 8)) ∧
      (s.params.packWrap = .mask8 → y.getLsbD 31 = sg.getLsbD 0) ∧
      (0 ≤ s32 e + 127 → s32 e + 127 ≤ 255 →
        y.getLsbD 31 = sg.getLsbD 0 ∧ ((y.extractLsb' 23 8).toNat : Int) = s32 e + 127)

/-- 40_codec.md R54 with R53: the triple ADD, SUB and MUL use. -/
def Obligations.ArithmeticOperandOfAWord : Prop :=
  ∀ w : Word, (opnd w).s.toNat = w.toNat / 2 ^ 31 ∧ (opnd w).e = (w.toNat / 2 ^ 23 % 2 ^ 8 : Nat) - 127 ∧
    (opnd w).m = if w.toNat / 2 ^ 16 % 2 ^ 15 = 0 then 0 else 0x80 + w.toNat / 2 ^ 16 % 2 ^ 7

/-- 40_codec.md R58: the integer form on a normal finite operand, truncation on every other. -/
def Obligations.F2bfAnswersTheIntegerForm : Prop :=
  ∀ (s : State) (a : Word), s.inp.a = some a →
    ∃ y, exec .f2bf s = .next (s.respond (.word y)) ∧
      (1 ≤ a.toNat / 2 ^ 23 % 2 ^ 8 → a.toNat / 2 ^ 23 % 2 ^ 8 ≤ 254 →
        y.toNat = (a.toNat + 0x8000) / 2 ^ 16 * 2 ^ 16) ∧
      (a.toNat / 2 ^ 23 % 2 ^ 8 = 0 ∨ a.toNat / 2 ^ 23 % 2 ^ 8 = 255 → y.toNat = a.toNat / 2 ^ 16 * 2 ^ 16)

/-- On every operand BF.F2BF answers what the native float addition of 40_codec.md §2 gives. The reading of fp32 patterns
and the rounding of the addition are IEEE-754's, PRESUMED (log entry 15). -/
def Obligations.F2bfAnswersTheNativeAddition : Prop :=
  ∀ (s : State) (a : Word), s.inp.a = some a →
    exec .f2bf s = .next (s.respond (.word (fp32ToBf16Native a)))

/-- 40_codec.md R59. -/
def Obligations.Bf2fAnswersTheUpperHalf : Prop :=
  ∀ (s : State) (a : Word), s.inp.a = some a →
    ∃ y, exec .bf2f s = .next (s.respond (.word y)) ∧ y.toNat = a.toNat / 2 ^ 16 * 2 ^ 16

/-- 40_codec.md R60, R61: the closed form of BF.I2BF. -/
def Obligations.I2bfAnswersTheClosedForm : Prop :=
  ∀ (s : State) (a : Word), s.inp.a = some a →
    ∃ y, exec .i2bf s = .next (s.respond (.word y)) ∧
      (s32 a = 0 → y = 0#32) ∧
      (s32 a ≠ 0 →
        let n := (s32 a).natAbs
        let p := Nat.log2 n
        let acc := if 7 ≤ p then n / 2 ^ (p - 7) else n * 2 ^ (7 - p)
        y.toNat = (if s32 a < 0 then 2 ^ 31 else 0) + (p + 127) * 2 ^ 23 + acc % 2 ^ 7 * 2 ^ 16)

/-- 40_codec.md R63, at the default parameters. -/
def Obligations.Bf2iAnswersByExponentRange : Prop :=
  ∀ (s : State) (a : Word), s.params.negRound = .towardZero → s.params.satTest = .netShift → s.inp.a = some a →
    ∃ y, exec .bf2i s = .next (s.respond (.word y)) ∧
      (upperHalf a = 0#16 → y = 0#32) ∧
      (upperHalf a ≠ 0#16 →
        let e := a.toNat / 2 ^ 23 % 2 ^ 8
        let m := 0x80 + a.toNat / 2 ^ 16 % 2 ^ 7
        let sgn : Int := if 2 ^ 31 ≤ a.toNat then -1 else 1
        (e ≤ 126 → y = 0#32) ∧
        (127 ≤ e → e ≤ 133 → y = u32 (sgn * (m / 2 ^ (134 - e) : Nat))) ∧
        (134 ≤ e → e ≤ 157 → y = u32 (sgn * (m * 2 ^ (e - 134) : Nat))) ∧
        (158 ≤ e → y = 0x7FFFFFFF#32))

/-- BF.BF2I by the number its operand stands for, at every value of `BF2I_NEG_ROUND` and `BF2I_SAT_TEST`
(92_eei_decisions.md D13, D14): saturated, or rounded down, or rounded toward zero. That negative zero is 0 under `floor`
is DEDUCED, log entry 10. -/
def Obligations.Bf2iRoundsTheValueAtEveryParameter : Prop :=
  ∀ (s : State) (a : Word), s.inp.a = some a →
    ∃ y, exec .bf2i s = .next (s.respond (.word y)) ∧
      let e := a.toNat / 2 ^ 23 % 2 ^ 8
      let threshold := match s.params.satTest with
        | .netShift => 158
        | .unbiased => 151
      (threshold ≤ e → y = 0x7FFFFFFF#32) ∧
      (e < threshold → s.params.negRound = .floor → y = u32 ⌊bf16Value a⌋) ∧
      (e < threshold → s.params.negRound = .towardZero →
        y = u32 (if bf16Value a < 0 then -⌊-bf16Value a⌋ else ⌊bf16Value a⌋))

/-- 40_codec.md R64: encoding what BF.DECODE answers gives the word back, its low half cleared. -/
def Obligations.EncodeOfDecodeClearsTheLowHalf : Prop :=
  ∀ (s : State) (w : Word), s.inp.a = some w →
    ∃ sg e m, exec .decode s = .next (s.respond (.triple sg e m)) ∧
      ∀ s' : State, s'.inp.sIn = some sg → s'.inp.eIn = some e → s'.inp.mIn = some m →
        exec .encode s' = .next (s'.respond (.word (w &&& 0xFFFF0000#32)))

/-- 40_codec.md R65: BF.F2BF of BF.BF2F is the identity on canonical words. -/
def Obligations.F2bfOfBf2fIsTheIdentity : Prop :=
  ∀ (s : State) (x b : Word), x.extractLsb' 0 16 = 0#16 →
    ∃ y, answerOnY .bf2f s x b = some y ∧ answerOnY .f2bf s y b = some x

/-- BF.I2BF of `−x` is BF.I2BF of `x` with bit 31 set, and `−2^31` gives 0xCF000000 (40_codec.md §3). -/
def Obligations.I2bfOfNegationSetsTheSign : Prop :=
  (∀ (s : State) (a b : Word), 0 < s32 a →
    ∃ y, answerOnY .i2bf s a b = some y ∧ y.getLsbD 31 = false ∧
      answerOnY .i2bf s (-a) b = some (y ||| 0x80000000#32)) ∧
  ∀ (s : State) (b : Word), answerOnY .i2bf s 0x80000000#32 b = some 0xCF000000#32

/-- BF.BF2I of BF.I2BF keeps the 8 leading bits of the magnitude, except that `−2^31` saturates (40_codec.md §3). -/
def Obligations.Bf2iOfI2bfKeepsEightLeadingBits : Prop :=
  ∀ (s : State) (a b : Word), s.params.satTest = .netShift →
    ∃ y, answerOnY .i2bf s a b = some y ∧
      let n := (s32 a).natAbs
      let kept : Int := (n - n % 2 ^ (Nat.log2 n - 7) : Nat)
      answerOnY .bf2i s y b =
        some (if s32 a = -2 ^ 31 then 0x7FFFFFFF#32 else u32 (if s32 a < 0 then -kept else kept))

/-! ## bf16_adder_subtractor -/

/-- 41_adder_subtractor.md R68, for BF.ADD (`neg = false`) and BF.SUB (`neg = true`), its loops replaced by what they end
in: the aligned, truncated magnitudes are added with their signs, and the sum is normalized. -/
def Obligations.AddAndSubAnswerTheAlignedSum : Prop :=
  ∀ (neg : Bool) (s : State) (a b : Word), s.inp.a = some a → s.inp.b = some b →
    ∃ y, exec (if neg then .sub else .add) s = .next (s.respond (.word y)) ∧
      let x := opnd a
      let z := opnd b
      let e := max x.e z.e
      let va := signed x.s (x.m / 2 ^ (e - x.e).toNat)
      let vb := signed z.s (z.m / 2 ^ (e - z.e).toNat)
      let t := va + (if neg then -vb else vb)
      (t = 0 → y = 0#32) ∧
      (t ≠ 0 → ∃ (m : Nat) (k : Int), y = pack s.params.packWrap (intSign t) k m ∧ 0x80 ≤ m ∧ m < 0x100 ∧
        ((0x100 ≤ t.natAbs ∧ m = t.natAbs / 2 ∧ k = e + 1) ∨
          (t.natAbs < 0x100 ∧ ∃ j : Nat, m = t.natAbs * 2 ^ j ∧ k = e - j)))

/-- BF.SUB(A, B) is BF.ADD(A, B with bit 31 flipped) (41_adder_subtractor.md §2). -/
def Obligations.SubIsAddOfTheFlippedSign : Prop :=
  ∀ (s : State) (a b : Word), ∃ y, answerOnY .sub s a b = some y ∧
    answerOnY .add s a (b ^^^ 0x80000000#32) = some y

/-- 41_adder_subtractor.md R77: the laws of BF.ADD and BF.SUB. -/
def Obligations.AdditionLaws : Prop :=
  (∀ (s : State) (a b : Word), ∃ y, answerOnY .add s a b = some y ∧ answerOnY .add s b a = some y ∧
    y.extractLsb' 0 16 = 0#16) ∧
  (∀ (s : State) (a : Word), answerOnY .sub s a a = some canonicalZero) ∧
  (∀ (s : State) (a z : Word), isZeroBF z = true →
    answerOnY .add s a z = some (if isZeroBF a then 0#32 else a &&& 0xFFFF0000#32)) ∧
  ∀ s : State, ∃ a b c ab bc l r : Word, answerOnY .add s a b = some ab ∧ answerOnY .add s b c = some bc ∧
    answerOnY .add s ab c = some l ∧ answerOnY .add s a bc = some r ∧ l ≠ r

/-- 41_adder_subtractor.md R72, R74: the ranges of the datapath's internal values. -/
def Obligations.AdderInternalRanges : Prop :=
  ∀ (a b : Word) (neg : Bool),
    let x := opnd a
    let z := opnd b
    let t := signedSum x z neg
    let c := carryStep { mag := t.natAbs, e := (align x z).e }
    let n := normalizeSum t (align x z).e
    (-127 ≤ x.e ∧ x.e ≤ 128) ∧ (x.m = 0 ∨ 0x80 ≤ x.m ∧ x.m ≤ 0xFF) ∧
    (-127 ≤ z.e ∧ z.e ≤ 128) ∧ (z.m = 0 ∨ 0x80 ≤ z.m ∧ z.m ≤ 0xFF) ∧
    (-510 ≤ t ∧ t ≤ 510) ∧ t.natAbs ≤ 0x1FE ∧ c.mag ≤ 0xFF ∧ (0x100 ≤ t.natAbs → 0x80 ≤ c.mag) ∧
    (-127 ≤ c.e ∧ c.e ≤ 129) ∧ (-134 ≤ n.e ∧ n.e ≤ 129) ∧
    ((n.mag = 0 ∧ n.e = -127) ∨ (0x80 ≤ n.mag ∧ n.mag ≤ 0xFF ∧ c.e - 7 ≤ n.e))

/-- 41_adder_subtractor.md R76, with `PACK_WRAP` at its default: the result by the exponent the sum ends with. -/
def Obligations.AddAndSubWrapOutOfRangeExponents : Prop :=
  (∀ (neg : Bool) (s : State) (a b : Word), s.params.packWrap = .word32 →
    ∃ y, answerOnY (if neg then .sub else .add) s a b = some y ∧
      let t := signedSum (opnd a) (opnd b) neg
      let n := normalizeSum t (align (opnd a) (opnd b)).e
      (0 ≤ n.e + 127 → n.e + 127 ≤ 255 →
        ((y.extractLsb' 23 8).toNat : Int) = n.e + 127 ∧ y.getLsbD 31 = decide (t < 0)) ∧
      (n.e + 127 < 0 ∨ n.e + 127 = 256 → y.getLsbD 31 = true) ∧ n.e + 127 ≤ 256) ∧
  ∀ s : State, s.params.packWrap = .word32 →
    answerOnY .add s 0x7FFF0000#32 0x7FFF0000#32 = some 0x807F0000#32 ∧
    answerOnY .sub s 0x00810000#32 0x00800000#32 = some 0xFD000000#32

/-- A sum whose exponent wraps can be the pattern of negative zero, though the sum is not zero: 41_adder_subtractor.md
R75's "never produces negative zero" is about zero sums (log entry 17). -/
def Obligations.OverflowingAddCanLookLikeNegativeZero : Prop :=
  ∀ s : State, s.params.packWrap = .word32 →
    answerOnY .add s 0x7F800000#32 0x7F800000#32 = some negativeZero

/-! ## bf16_multiplier -/

/-- 42_multiplier.md R78: the product of the significands truncated to eight bits, by its size. -/
def Obligations.MulAnswersTheTruncatedProduct : Prop :=
  ∀ (s : State) (a b : Word), s.inp.a = some a → s.inp.b = some b →
    ∃ y, exec .mul s = .next (s.respond (.word y)) ∧
      let x := opnd a
      let z := opnd b
      let p := x.m * z.m
      let sg := x.s ^^^ z.s
      (p = 0 → y = pack s.params.packWrap sg (-127) 0) ∧
      (0 < p → p < 0x8000 → y = pack s.params.packWrap sg (x.e + z.e) (p / 0x80)) ∧
      (0x8000 ≤ p → y = pack s.params.packWrap sg (x.e + z.e + 1) (p / 0x100))

/-- 42_multiplier.md R84: the laws of BF.MUL. -/
def Obligations.MultiplicationLaws : Prop :=
  (∀ (s : State) (a b : Word), ∃ y, answerOnY .mul s a b = some y ∧ answerOnY .mul s b a = some y ∧
    let n := normalizeProduct (opnd a) (opnd b)
    (n.mag ≠ 0 → 0 ≤ n.e + 127 → n.e + 127 ≤ 255 → y.getLsbD 31 = (a.getLsbD 31 ^^ b.getLsbD 31)) ∧
    (s.params.packWrap = .word32 → n.e + 127 < 0 ∨ 255 < n.e + 127 → y.getLsbD 31 = true)) ∧
  ∀ (s : State) (a : Word), answerOnY .mul s a 0x3F800000#32 = some (a &&& 0xFFFF0000#32)

/-- The ranges of the multiplier's internal values, and when its zero test fires (42_multiplier.md §2). The bound 0xFE on
the final magnitude holds after a carry and without one it is 0xFF: DEDUCED, log entry 18. -/
def Obligations.MultiplierInternalRanges : Prop :=
  ∀ a b : Word,
    let x := opnd a
    let z := opnd b
    let n := normalizeProduct x z
    (-127 ≤ x.e ∧ x.e ≤ 128) ∧ (-127 ≤ z.e ∧ z.e ≤ 128) ∧
    (x.m * z.m = 0 ∨ 0x4000 ≤ x.m * z.m ∧ x.m * z.m ≤ 0xFE01) ∧
    ((rawProduct x z).mag = 0 ∨ 0x80 ≤ (rawProduct x z).mag ∧ (rawProduct x z).mag ≤ 0x1FC) ∧
    (n.mag = 0 ↔ isZeroBF a = true ∨ isZeroBF b = true) ∧ (n.mag = 0 → n.e = -127) ∧
    (n.mag ≠ 0 → 0x80 ≤ n.mag ∧ n.mag ≤ 0xFF ∧ -254 ≤ n.e ∧ n.e ≤ 257) ∧ (0x100 ≤ (rawProduct x z).mag → n.mag ≤ 0xFE)

/-! ## bf16_ln_approximator -/

/-- 43_ln_approximator.md R90: BF.LN answers what a host gets that issues the nine steps as nine requests, each result
presented again where the next step needs it. -/
def Obligations.LnAnswersTheNineRequestProgram : Prop :=
  ∀ (s : State) (a : Word), lnNormal a = true →
    ∃ (r : LnTrace) (t u : State),
      Host.Core.run core 9
        { s with events := lnProgram s.params.consts (BitVec.ofNat 32 (0x3F800000 + a.toNat / 2 ^ 16 % 2 ^ 7 * 2 ^ 16))
                   (u32 ((a.toNat / 2 ^ 23 % 2 ^ 8 : Nat) - 127)) r } = .next t ∧
      t.responses = s.responses ++ r.words.map OutPorts.word ∧
      step { s with events := [requestA .ln a] } = .next u ∧ u.out = .word r.y

/-- Each default ln constant is what BF.F2BF gives for an fp32 number nearest its decimal, in thousandths
(10_state.md §3; the reading of fp32 is PRESUMED, log entry 15): the distance is at most half a unit in the last place. -/
def Obligations.LnConstantsAreTheRoundedDecimals : Prop :=
  ∀ row ∈ [(defaultConsts.c0, (-1490 : Int)), (defaultConsts.c1, 2110), (defaultConsts.c2, -730),
      (defaultConsts.c3, 109), (defaultConsts.ln2, 693)],
    ∃ f : Word, fp32Normal f = true ∧
      2 * |1000 * fp32Value f - row.2 * 2 ^ 149| ≤ 1000 * 2 ^ ((fp32Exp f).toNat - 1) ∧
      fp32ToBf16 f = row.1

/-- 43_ln_approximator.md R91: BF.LN of a word whose upper half is zero, at both values of `LN_ZERO_RESULT`. -/
def Obligations.LnOfZeroAnswersItsFixedWord : Prop :=
  ∀ (s : State) (a : Word), s.inp.a = some a → upperHalf a = 0#16 →
    (s.params.lnZero = .signClear → exec .ln s = .next (s.respond (.word 0x7F800000#32))) ∧
    (s.params.lnZero = .signSet → exec .ln s = .next (s.respond (.word 0xFF800000#32)))

/-- Outside its domain BF.LN still answers, with a word about which nothing is said (60_exceptions.md §1; the value is
`Config.lnOutOfDomain`, log entry 8). -/
def Obligations.LnOutsideItsDomainStillAnswers : Prop :=
  ∀ (s : State) (a : Word), s.inp.a = some a → upperHalf a ≠ 0#16 → lnNormal a = false →
    ∃ y, exec .ln s = .next (s.respond (.word y))

/-- 43_ln_approximator.md R89: every exponent converts exactly. -/
def Obligations.LnExponentConvertsExactly : Prop :=
  (∀ (s : State) (e : Int) (b : Word), -127 ≤ e → e ≤ 128 →
    ∃ y, answerOnY .i2bf s (u32 e) b = some y ∧ bf16Value y = e) ∧
  ∀ (s : State) (b : Word), answerOnY .i2bf s (u32 0) b = some 0x00000000#32 ∧
    answerOnY .i2bf s (u32 1) b = some 0x3F800000#32 ∧ answerOnY .i2bf s (u32 (-1)) b = some 0xBF800000#32 ∧
    answerOnY .i2bf s (u32 (-126)) b = some 0xC2FC0000#32

/-- For every operand in [1, 2) and the default parameters, BF.LN's result is within 0.05 of the natural logarithm
(43_ln_approximator.md §3). -/
def Obligations.LnIsWithinItsErrorBoundOnOneToTwo : Prop :=
  ∀ (s : State) (a : Word), s.params = defaultParams → s.inp.a = some a → 0x3F800000 ≤ a.toNat → a.toNat < 0x40000000 →
    ∃ y, exec .ln s = .next (s.respond (.word y)) ∧
      |((bf16Value y : ℚ) : ℝ) - Real.log ((bf16Value a : ℚ) : ℝ)| < 0.05

/-! ## Runs, reset and refusal -/

/-- 10_state.md R26: at reset no port has a value and the constants have their fixed words, which a reset of any state
does not change. -/
def Obligations.ResetLeavesNoPortValue : Prop :=
  (State.reset.op = none ∧ State.reset.inp = ⟨none, none, none, none, none⟩ ∧
    State.reset.out = ⟨none, none, none, none⟩ ∧
    State.reset.params.consts = ⟨0xBFBF0000#32, 0x40070000#32, 0xBF3B0000#32, 0x3DDF0000#32, 0x3F310000#32⟩) ∧
  ∀ (s : State) (rest : List HostEvent), s.events = .reset :: rest →
    ∃ t, step s = .next t ∧ t.params.consts = s.params.consts

/-- A reset, alone or before the response to a request, leaves no port with a value and takes nothing back that was
answered (DEDUCED from 10_state.md §4, log entry 5). -/
def Obligations.ResetEventClearsThePorts : Prop :=
  ∀ (s : State) (r : Request) (rest : List HostEvent),
    s.events = .reset :: rest ∨ (s.events = .requestThenReset r :: rest ∧ r.wf = true) →
    step s = .next { s with op := none, inp := ⟨none, none, none, none, none⟩, out := ⟨none, none, none, none⟩,
                            events := rest }

/-- Reset gives no response and the request after it is dealt with as it would be before (70_reset_and_hazards.md §1).
That BF.LN outside its domain gives the same result after as before is the model's choice, log entry 8: its free value is a
function of `A[31:16]`. -/
def Obligations.ResetHasNoVisibleEffect : Prop :=
  ∀ (s : State) (r : Request) (rest : List HostEvent), s.events = .reset :: .request r :: rest →
    ∃ t, step s = .next t ∧ t.responses = s.responses ∧ step t = step { s with events := .request r :: rest }

/-- 70_reset_and_hazards.md R109: an abandoned request has no response, and presented again it has one. -/
def Obligations.AbandonedRequestHasNoResponse : Prop :=
  ∀ (s : State) (r : Request) (rest : List HostEvent), r.wf = true →
    s.events = .requestThenReset r :: .request r :: rest →
    ∃ t u o, step s = .next t ∧ t.responses = s.responses ∧
      step t = .next u ∧ u.responses = s.responses ++ [o] ∧ u.out = o

/-- 30_encoding.md R44: a request with a reserved code is refused, with no response and no next state. -/
def Obligations.ReservedCodeIsRefused : Prop :=
  ∀ (s : State) (r : Request) (rest : List HostEvent), s.events = .request r :: rest → 0xA ≤ r.op.toNat →
    step s = .refused (.reservedOp r.op)

/-- After well-formed events, a request with a reserved code refuses the run by that code, and every longer run is
refused so too, whatever the host would do after it (60_exceptions.md §1; the outcome as the mark is log entry 12). -/
def Obligations.RefusedRunStaysRefused : Prop :=
  ∀ (s : State) (es rest : List HostEvent) (r : Request), s.events = es ++ .request r :: rest →
    es.all HostEvent.wf = true → 0xA ≤ r.op.toNat →
    ∀ n : Nat, es.length < n → Host.Core.run core n s = .refused (.reservedOp r.op)

/-- Requests are served in the order presented, each well-formed one gets exactly one response, in the same order, and that
response is the one a freshly reset unit gives to it alone (20_memory.md §4). For BF.LN outside its domain the last is
the model's choice, log entry 8: its free value is a function of `A[31:16]`. -/
def Obligations.RunAnswersEachRequestAsIfAlone : Prop :=
  (∀ (s : State) (es rest : List HostEvent), s.events = es ++ rest → es.all HostEvent.wf = true →
    ∃ t, Host.Core.run core es.length s = .next t ∧ t.events = rest ∧
      t.responses = s.responses ++ es.flatMap (answersDue s.params)) ∧
  ∀ (p : Params) (r : Request), r.wf = true → ∃ o, freshAnswer p r = [o]

/-- A host that keeps its duties never meets a stop (70_reset_and_hazards.md §2, §4). -/
def Obligations.DutifulRunGoesOn : Prop :=
  ∀ (n : Nat) (s : State), dutiful s = true → ∃ t, Host.Core.run core n s = .next t ∧ dutiful t = true

/-- Every step keeps the invariant: the responses given are legal and the result ports carry nothing or the last one
(10_state.md §2). -/
def Obligations.StepKeepsResponsesLegal : Prop := ∀ s t : State, s.Inv → step s = .next t → t.Inv

/-- The invariant holds at reset. -/
def Obligations.ResetHasLegalResponses : Prop := State.reset.Inv
end

