-- ==== Sys2Proof/Laws/State.lean ====
section
/-! SUPPORT. One lemma per field per update of `State`. -/

namespace Sys2Proof.Machine

section Present
variable (s : State) (r : Request) (rest : List HostEvent)

@[simp] theorem State.present_params : (s.present r rest).params = s.params := rfl
@[simp] theorem State.present_op : (s.present r rest).op = some r.op := rfl
@[simp] theorem State.present_inp : (s.present r rest).inp = r.ports := rfl
@[simp] theorem State.present_out : (s.present r rest).out = s.out := rfl
@[simp] theorem State.present_events : (s.present r rest).events = rest := rfl
@[simp] theorem State.present_responses : (s.present r rest).responses = s.responses := rfl

end Present

section ResetUnit
variable (s : State) (rest : List HostEvent)

@[simp] theorem State.resetUnit_params : (s.resetUnit rest).params = s.params := rfl
@[simp] theorem State.resetUnit_op : (s.resetUnit rest).op = none := rfl
@[simp] theorem State.resetUnit_inp : (s.resetUnit rest).inp = InPorts.idle := rfl
@[simp] theorem State.resetUnit_out : (s.resetUnit rest).out = OutPorts.silent := rfl
@[simp] theorem State.resetUnit_events : (s.resetUnit rest).events = rest := rfl
@[simp] theorem State.resetUnit_responses : (s.resetUnit rest).responses = s.responses := rfl

end ResetUnit

section Respond
variable (s : State) (o : OutPorts)

@[simp] theorem State.respond_params : (s.respond o).params = s.params := rfl
@[simp] theorem State.respond_op : (s.respond o).op = s.op := rfl
@[simp] theorem State.respond_inp : (s.respond o).inp = s.inp := rfl
@[simp] theorem State.respond_out : (s.respond o).out = o := rfl
@[simp] theorem State.respond_events : (s.respond o).events = s.events := rfl
@[simp] theorem State.respond_responses : (s.respond o).responses = s.responses ++ [o] := rfl

end Respond

section PushRequest
variable (s : State) (r : Request)

@[simp] theorem State.pushRequest_params : (s.pushRequest r).params = s.params := rfl
@[simp] theorem State.pushRequest_op : (s.pushRequest r).op = s.op := rfl
@[simp] theorem State.pushRequest_inp : (s.pushRequest r).inp = s.inp := rfl
@[simp] theorem State.pushRequest_out : (s.pushRequest r).out = s.out := rfl
@[simp] theorem State.pushRequest_events : (s.pushRequest r).events = .request r :: s.events := rfl
@[simp] theorem State.pushRequest_responses : (s.pushRequest r).responses = s.responses := rfl

end PushRequest

@[simp] theorem OutPorts.word_y (y : Word) : (OutPorts.word y).y = some y := rfl
@[simp] theorem OutPorts.triple_y (s : BitVec 1) (e : Word) (m : BitVec 8) : (OutPorts.triple s e m).y = none := rfl

end Sys2Proof.Machine
end

