-- ==== Sys2Proof/Laws/Ops.lean ====
section
/-! SUPPORT. For each shared operation, what it can do, said once. -/

namespace Sys2Proof.Machine

/-! ## Ports and responses -/

/-- A port read goes on exactly when the port is driven. -/
theorem withPort_next {α : Type} {v : Option α} {p : InPort} {k : α → Result} {t : State} :
    withPort v p k = .next t ↔ ∃ x, v = some x ∧ k x = .next t := by
  cases v <;> simp [withPort]

/-- What an operation that reads `A` can do when it goes on. -/
theorem answerFromA_next {s t : State} {f : Word → OutPorts} :
    answerFromA s f = .next t ↔ ∃ a, s.inp.a = some a ∧ t = s.respond (f a) := by
  simp [answerFromA, withPort_next, @eq_comm _ t]

/-- What an operation that reads `A` and `B` can do when it goes on. -/
theorem answerFromAB_next {s t : State} {f : Word → Word → OutPorts} :
    answerFromAB s f = .next t ↔
      ∃ a, s.inp.a = some a ∧ ∃ b, s.inp.b = some b ∧ t = s.respond (f a b) := by
  simp [answerFromAB, withPort_next, @eq_comm _ t]

/-- What BF.ENCODE's shape can do when it goes on. -/
theorem answerFromTriple_next {s t : State} {f : BitVec 1 → Word → BitVec 8 → OutPorts} :
    answerFromTriple s f = .next t ↔
      ∃ sg, s.inp.sIn = some sg ∧ ∃ e, s.inp.eIn = some e ∧ ∃ m, s.inp.mIn = some m ∧
        t = s.respond (f sg e m) := by
  simp [answerFromTriple, withPort_next, @eq_comm _ t]

/-- An abandoned request goes on exactly when it could have been answered, and then leaves the unit reset. -/
theorem abandon_next {s t : State} {rest : List HostEvent} {r : Result} :
    abandon s rest r = .next t ↔ (∃ u, r = .next u) ∧ t = s.resetUnit rest := by
  cases r <;> simp [abandon, eq_comm]

/-- Everything a step can do when it goes on. -/
theorem takeEvent_next {s t : State} (h : takeEvent s = .next t) :
    (s.events = [] ∧ t = s) ∨
    (∃ r rest i, s.events = .request r :: rest ∧ decode r.op = .op i ∧ exec i (s.present r rest) = .next t) ∨
    (∃ r rest i u, s.events = .requestThenReset r :: rest ∧ decode r.op = .op i ∧
      exec i (s.present r rest) = .next u ∧ t = s.resetUnit rest) ∨
    (∃ rest, s.events = .reset :: rest ∧ t = s.resetUnit rest) := by
  unfold takeEvent at h
  split at h
  · exact .inl ⟨‹_›, by simpa using h.symm⟩
  · next r rest hev =>
    simp only [serve, State.present_op] at h
    split at h
    · exact .inr (.inl ⟨r, rest, _, hev, ‹_›, h⟩)
    · cases h
  · next r rest hev =>
    obtain ⟨⟨u, hu⟩, ht⟩ := abandon_next.1 h
    simp only [serve, State.present_op] at hu
    split at hu
    · exact .inr (.inr (.inl ⟨r, rest, _, u, hev, ‹_›, hu, ht⟩))
    · cases hu
  · exact .inr (.inr (.inr ⟨_, ‹_›, by simpa using h.symm⟩))

/-! ## Normalizing -/

/-- Seven left shifts bring a non-zero magnitude below 0x100 into 0x80..0xFF, and scale it by what the exponent loses. -/
theorem shiftUp_spec (x : Scaled) (h0 : 0 < x.mag) (h1 : x.mag < 0x100) :
    0x80 ≤ (shiftUp 7 x).mag ∧ (shiftUp 7 x).mag < 0x100 ∧
      ∃ j : Nat, j ≤ 7 ∧ (shiftUp 7 x).mag = x.mag * 2 ^ j ∧ (shiftUp 7 x).e = x.e - (j : Int) := by
  have key : ∀ fuel x, 0 < x.mag → x.mag < 0x100 → 0x80 ≤ x.mag * 2 ^ fuel →
      0x80 ≤ (shiftUp fuel x).mag ∧ (shiftUp fuel x).mag < 0x100 ∧
        ∃ j : Nat, j ≤ fuel ∧ (shiftUp fuel x).mag = x.mag * 2 ^ j ∧ (shiftUp fuel x).e = x.e - (j : Int) := by
    intro fuel
    induction fuel with
    | zero => intro x _ h1 h2; exact ⟨by simpa [shiftUp] using h2, h1, 0, by simp, by simp [shiftUp], by simp [shiftUp]⟩
    | succ n ih =>
      intro x h0 h1 h2
      by_cases hc : x.mag < 0x80
      · have h2' : 0x80 ≤ (x.mag <<< 1) * 2 ^ n := by
          rw [Nat.shiftLeft_eq]; calc 0x80 ≤ x.mag * 2 ^ (n + 1) := h2
            _ = x.mag * 2 ^ 1 * 2 ^ n := by ring
        obtain ⟨a, b, j, hj, hm, he⟩ := ih { mag := x.mag <<< 1, e := x.e - 1 }
          (by simp only [Nat.shiftLeft_eq]; omega) (by simp only [Nat.shiftLeft_eq]; omega) h2'
        simp only [shiftUp, hc, if_true]
        refine ⟨a, b, j + 1, by omega, ?_, ?_⟩
        · rw [hm, Nat.shiftLeft_eq]; ring
        · rw [he]; push_cast; ring
      · simp only [shiftUp, hc, if_false]
        exact ⟨by omega, h1, 0, by omega, by simp, by simp⟩
  exact key 7 x h0 h1 (by omega)

/-- Twenty-four right shifts bring a magnitude from 0x80 to 2^32 − 1 into 0x80..0xFF, dropping low bits. -/
theorem shiftDown_spec (x : Scaled) (h0 : 0x80 ≤ x.mag) (h1 : x.mag < 2 ^ 32) :
    0x80 ≤ (shiftDown 24 x).mag ∧ (shiftDown 24 x).mag < 0x100 ∧
      ∃ j : Nat, j ≤ 24 ∧ (shiftDown 24 x).mag = x.mag / 2 ^ j ∧ (shiftDown 24 x).e = x.e + (j : Int) := by
  have key : ∀ fuel x, 0x80 ≤ x.mag → x.mag < 0x100 * 2 ^ fuel →
      0x80 ≤ (shiftDown fuel x).mag ∧ (shiftDown fuel x).mag < 0x100 ∧
        ∃ j : Nat, j ≤ fuel ∧ (shiftDown fuel x).mag = x.mag / 2 ^ j ∧ (shiftDown fuel x).e = x.e + (j : Int) := by
    intro fuel
    induction fuel with
    | zero => intro x h0 h1; exact ⟨h0, by simpa [shiftDown] using h1, 0, by simp, by simp [shiftDown], by simp [shiftDown]⟩
    | succ n ih =>
      intro x h0 h1
      by_cases hc : 0x100 ≤ x.mag
      · obtain ⟨a, b, j, hj, hm, he⟩ := ih { mag := x.mag >>> 1, e := x.e + 1 }
          (by simp only [Nat.shiftRight_eq_div_pow]; omega)
          (by simp only [Nat.shiftRight_eq_div_pow]; rw [pow_succ] at h1; omega)
        simp only [shiftDown, hc, if_true]
        refine ⟨a, b, j + 1, by omega, ?_, ?_⟩
        · rw [hm, Nat.shiftRight_eq_div_pow, Nat.div_div_eq_div_mul, ← pow_add, Nat.add_comm]
        · rw [he]; push_cast; ring
      · simp only [shiftDown, hc, if_false]
        exact ⟨h0, by omega, 0, by omega, by simp, by simp⟩
  exact key 24 x h0 (by omega)

/-- One carry step brings a magnitude up to 0x1FF below 0x100. -/
theorem carryStep_spec (x : Scaled) (h : x.mag ≤ 0x1FF) :
    (carryStep x).mag ≤ 0xFF ∧
      ((0x100 ≤ x.mag ∧ (carryStep x).mag = x.mag / 2 ∧ (carryStep x).e = x.e + 1) ∨
        (x.mag < 0x100 ∧ carryStep x = x)) := by
  unfold carryStep
  split
  · exact ⟨by simp only [Nat.shiftRight_eq_div_pow]; omega, .inl ⟨‹_›, by simp [Nat.shiftRight_eq_div_pow], rfl⟩⟩
  · exact ⟨by omega, .inr ⟨by omega, rfl⟩⟩

/-! ## Fields -/

/-- A significand has its implicit bit (R37). -/
theorem significand_toNat (f : BitVec 7) : (significand f).toNat = 0x80 + f.toNat := by
  revert f; decide

/-- An unbiased exponent's range (R74). -/
theorem unbias_range (e : BitVec 8) : -127 ≤ unbias e ∧ unbias e ≤ 128 := by
  have := e.isLt
  unfold unbias
  omega

/-- An operand's significand is 0 or has its implicit bit (R74). -/
theorem opnd_m (w : Word) : (opnd w).m = 0 ∨ (0x80 ≤ (opnd w).m ∧ (opnd w).m ≤ 0xFF) := by
  have h := (fieldsOf w).f.isLt
  unfold opnd
  split
  · exact .inl rfl
  · right; simp only [significand_toNat]; omega

/-- A packed word has nothing in its low half (R22, R52). -/
theorem pack_low (wrap : PackWrap) (s : BitVec 1) (e : Int) (m : Nat) :
    (pack wrap s e m).extractLsb' 0 16 = 0#16 := by
  apply BitVec.eq_of_getLsbD_eq
  intro i hi
  have h1 : ¬ (16 ≤ i) := by omega
  have h2 : i < 23 := by omega
  have h3 : i < 31 := by omega
  simp [pack, hi, h2, h3]

/-- The sign bit of a packed word (R52): under `word32` bit 8 of `e + 127` lands there too. -/
theorem pack_sign (wrap : PackWrap) (s : BitVec 1) (e : Int) (m : Nat) :
    (pack wrap s e m).getLsbD 31 =
      (s.getLsbD 0 || (decide (wrap = .word32) && (u32 (e + 127)).getLsbD 8)) := by
  cases wrap <;> simp [pack, biasedBits]

/-- The exponent field of a packed word is the low 8 bits of `e + 127` (R52). -/
theorem pack_exponent (wrap : PackWrap) (s : BitVec 1) (e : Int) (m : Nat) :
    (pack wrap s e m).extractLsb' 23 8 = (u32 (e + 127)).extractLsb' 0 8 := by
  apply BitVec.eq_of_getLsbD_eq
  intro i hi
  obtain rfl | rfl | rfl | rfl | rfl | rfl | rfl | rfl :
    i = 0 ∨ i = 1 ∨ i = 2 ∨ i = 3 ∨ i = 4 ∨ i = 5 ∨ i = 6 ∨ i = 7 := by omega
  all_goals cases wrap <;> simp [pack, biasedBits]

/-- The fraction of a packed word is the magnitude's low 7 bits (R52): the implicit bit is dropped. -/
theorem pack_fraction (wrap : PackWrap) (s : BitVec 1) (e : Int) (m : Nat) :
    (pack wrap s e m).extractLsb' 16 7 = BitVec.ofNat 7 m := by
  apply BitVec.eq_of_getLsbD_eq
  intro i hi
  obtain rfl | rfl | rfl | rfl | rfl | rfl | rfl : i = 0 ∨ i = 1 ∨ i = 2 ∨ i = 3 ∨ i = 4 ∨ i = 5 ∨ i = 6 := by omega
  all_goals cases wrap <;> simp [pack, biasedBits]
  all_goals simp only [BitVec.getElem_eq_testBit_toNat, BitVec.toNat_ofNat, Nat.testBit_mod_two_pow]; simp

/-- Both operands are aligned to the same exponent in either order (R77). -/
theorem align_comm (x y : Triple) :
    align y x = { e := (align x y).e, ma := (align x y).mb, mb := (align x y).ma } := by
  unfold align
  split <;> split <;> simp_all <;> omega

end Sys2Proof.Machine
end

