-- ==== Sys2Proof/Laws/Exec.lean ====
section
/-! SUPPORT. What each operation does with its ports driven, as one equation, and the word it answers on `Y`. -/

namespace Sys2Proof.Machine

section Driven
variable {s : State} {a b : Word} {sg : BitVec 1} {e : Word} {m : BitVec 8}

theorem exec_decode (h : s.inp.a = some a) : exec .decode s = .next (s.respond (decodedTriple a)) := by
  simp [exec, execDecode, answerFromA, withPort, h]

theorem exec_encode (hs : s.inp.sIn = some sg) (he : s.inp.eIn = some e) (hm : s.inp.mIn = some m) :
    exec .encode s = .next (s.respond (.word (encodedWord s.params sg e m))) := by
  simp [exec, execEncode, answerFromTriple, withPort, hs, he, hm]

theorem exec_f2bf (h : s.inp.a = some a) : exec .f2bf s = .next (s.respond (.word (fp32ToBf16 a))) := by
  simp [exec, execF2bf, answerFromA, withPort, h]

theorem exec_bf2f (h : s.inp.a = some a) : exec .bf2f s = .next (s.respond (.word (clearLow a))) := by
  simp [exec, execBf2f, answerFromA, withPort, h]

theorem exec_i2bf (h : s.inp.a = some a) : exec .i2bf s = .next (s.respond (.word (intToBf16 s.params a))) := by
  simp [exec, execI2bf, answerFromA, withPort, h]

theorem exec_bf2i (h : s.inp.a = some a) : exec .bf2i s = .next (s.respond (.word (bf16ToInt s.params a))) := by
  simp [exec, execBf2i, answerFromA, withPort, h]

theorem exec_add (ha : s.inp.a = some a) (hb : s.inp.b = some b) :
    exec .add s = .next (s.respond (.word (addsub s.params a b false))) := by
  simp [exec, execAdd, answerFromAB, withPort, ha, hb]

theorem exec_sub (ha : s.inp.a = some a) (hb : s.inp.b = some b) :
    exec .sub s = .next (s.respond (.word (addsub s.params a b true))) := by
  simp [exec, execSub, answerFromAB, withPort, ha, hb]

theorem exec_mul (ha : s.inp.a = some a) (hb : s.inp.b = some b) :
    exec .mul s = .next (s.respond (.word (mulbf s.params a b))) := by
  simp [exec, execMul, answerFromAB, withPort, ha, hb]

theorem exec_ln (h : s.inp.a = some a) : exec .ln s = .next (s.respond (.word (lnWord s.params a))) := by
  simp [exec, execLn, answerFromA, withPort, h]

end Driven

section OnY
variable (s : State) (a b : Word)

@[simp] theorem State.driveAB_params : (s.driveAB a b).params = s.params := rfl
@[simp] theorem State.driveAB_a : (s.driveAB a b).inp.a = some a := rfl
@[simp] theorem State.driveAB_b : (s.driveAB a b).inp.b = some b := rfl
@[simp] theorem State.driveAB_responses : (s.driveAB a b).responses = s.responses := rfl

theorem answerOnY_f2bf : answerOnY .f2bf s a b = some (fp32ToBf16 a) := by
  simp [answerOnY, exec_f2bf (s := s.driveAB a b) (a := a) rfl]

theorem answerOnY_bf2f : answerOnY .bf2f s a b = some (clearLow a) := by
  simp [answerOnY, exec_bf2f (s := s.driveAB a b) (a := a) rfl]

theorem answerOnY_i2bf : answerOnY .i2bf s a b = some (intToBf16 s.params a) := by
  simp [answerOnY, exec_i2bf (s := s.driveAB a b) (a := a) rfl]

theorem answerOnY_bf2i : answerOnY .bf2i s a b = some (bf16ToInt s.params a) := by
  simp [answerOnY, exec_bf2i (s := s.driveAB a b) (a := a) rfl]

theorem answerOnY_add : answerOnY .add s a b = some (addsub s.params a b false) := by
  simp [answerOnY, exec_add (s := s.driveAB a b) (a := a) (b := b) rfl rfl]

theorem answerOnY_sub : answerOnY .sub s a b = some (addsub s.params a b true) := by
  simp [answerOnY, exec_sub (s := s.driveAB a b) (a := a) (b := b) rfl rfl]

theorem answerOnY_mul : answerOnY .mul s a b = some (mulbf s.params a b) := by
  simp [answerOnY, exec_mul (s := s.driveAB a b) (a := a) (b := b) rfl rfl]

end OnY

end Sys2Proof.Machine
end

