-- ==== Sys2Proof/Laws/PerInstr.lean ====
section
/-! SUPPORT. A fact about every operation as syntax, one lemma for each: its code's row stands in R43's table, the code is
none of R44's reserved ones, and its ports are R20's in number. -/

namespace Sys2Proof.Laws.OpRowInTable

/-- The operation's row stands in the table, below the reserved codes, and it writes one port or the triple's three. -/
def Statement (i : Instr) : Prop :=
  (⟨encode i, i⟩ : OpRow) ∈ opTable ∧ (encode i).toNat < 10 ∧
    i.writes = (if i = .decode then [.sOut, .eOut, .mOut] else [.y])

theorem decode : Statement .decode := by unfold Statement; decide
theorem encode : Statement .encode := by unfold Statement; decide
theorem f2bf : Statement .f2bf := by unfold Statement; decide
theorem bf2f : Statement .bf2f := by unfold Statement; decide
theorem i2bf : Statement .i2bf := by unfold Statement; decide
theorem bf2i : Statement .bf2i := by unfold Statement; decide
theorem add : Statement .add := by unfold Statement; decide
theorem sub : Statement .sub := by unfold Statement; decide
theorem mul : Statement .mul := by unfold Statement; decide
theorem ln : Statement .ln := by unfold Statement; decide

end Sys2Proof.Laws.OpRowInTable
end

