-- ==== Sys2Proof/Tests/Slice0.lean ====
section
/-! SUPPORT. Tests on fixed values, their expected results from spec/, and a witness for the hypotheses of every statement
that has some. Vector names S1, ... and table numbers are 95_test_vectors.md's. -/

namespace Sys2Proof.Tests

open Sys2Proof Machine

/-! ## Helpers -/

/-- A request on `A` and `B`, by its operation code. -/
def reqAB (code : BitVec 4) (a b : Word) : Request := ⟨code, { InPorts.idle with a := some a, b := some b }⟩

/-- A request on `A`. -/
def reqA (code : BitVec 4) (a : Word) : Request := ⟨code, { InPorts.idle with a := some a }⟩

/-- A request on the triple's ports. -/
def reqTriple (code : BitVec 4) (s : BitVec 1) (e : Word) (m : BitVec 8) : Request :=
  ⟨code, { InPorts.idle with sIn := some s, eIn := some e, mIn := some m }⟩

/-- A unit after reset whose host presents `r` next. -/
def presenting (r : Request) : State := State.reset.pushRequest r

/-- What the result ports carry after one step; `none` when the step stops. -/
def portsAfter (s : State) : Option OutPorts :=
  match step s with
  | .next t => some t.out
  | .fault _ => none
  | .refused _ => none

/-- The refusal a step ends in. -/
def refusalOf (s : State) : Option Refusal :=
  match step s with
  | .next _ => none
  | .fault _ => none
  | .refused q => some q

/-- The unit after reset with these words on `A` and `B`. -/
def drivenAB (a b : Word) : State := State.reset.driveAB a b

/-- The unit after reset with a triple on its ports. -/
def drivenTriple (s : BitVec 1) (e : Word) (m : BitVec 8) : State :=
  { State.reset with inp := { InPorts.idle with sIn := some s, eIn := some e, mIn := some m } }

/-- The unit after reset with other parameters and a word on `A`. -/
def withParams (neg : NegRound) (sat : SatTest) (a : Word) : State :=
  { drivenAB a 0#32 with params := { defaultParams with negRound := neg, satTest := sat } }

/-! ## Decoding: words written out from R43's table -/

theorem test_decode_word_decode : decodeTableWord 8 0b0000 = some .decode := by decide
theorem test_decode_word_encode : decodeTableWord 8 0b0001 = some .encode := by decide
theorem test_decode_word_f2bf : decodeTableWord 8 0b0010 = some .f2bf := by decide
theorem test_decode_word_bf2f : decodeTableWord 8 0b0011 = some .bf2f := by decide
theorem test_decode_word_i2bf : decodeTableWord 8 0b0100 = some .i2bf := by decide
theorem test_decode_word_bf2i : decodeTableWord 8 0b0101 = some .bf2i := by decide
theorem test_decode_word_add : decodeTableWord 8 0b0110 = some .add := by decide
theorem test_decode_word_sub : decodeTableWord 8 0b0111 = some .sub := by decide
theorem test_decode_word_mul : decodeTableWord 8 0b1000 = some .mul := by decide
theorem test_decode_word_ln : decodeTableWord 8 0b1001 = some .ln := by decide

/-- R44: no reserved code decodes. -/
theorem test_reserved_words_decode_to_none :
    [0xA, 0xB, 0xC, 0xD, 0xE, 0xF].map (decodeTableWord 8) = [none, none, none, none, none, none] := by decide

/-- No two rows of the table share a code. -/
theorem test_table_rows_distinct : opTable.Pairwise (fun x y => x.code ≠ y.code) := by decide

/-! ## WellFormed: an ill-formed term for each check -/

theorem test_wf_accepts_add : (reqAB 0x6#4 0#32 0#32).wf = true := by decide
theorem test_wf_refuses_reserved_code : (reqAB 0xA#4 0#32 0#32).wf = false := by decide
theorem test_wf_refuses_undriven_a :
    (Request.wf ⟨0x6#4, { InPorts.idle with b := some 0#32 }⟩) = false := by decide
theorem test_wf_refuses_undriven_b : (reqA 0x6#4 0#32).wf = false := by decide
theorem test_wf_refuses_undriven_sign :
    (Request.wf ⟨0x1#4, { InPorts.idle with eIn := some 0#32, mIn := some 0#8 }⟩) = false := by decide
theorem test_wf_refuses_undriven_exponent :
    (Request.wf ⟨0x1#4, { InPorts.idle with sIn := some 0#1, mIn := some 0#8 }⟩) = false := by decide
theorem test_wf_refuses_undriven_mantissa :
    (Request.wf ⟨0x1#4, { InPorts.idle with sIn := some 0#1, eIn := some 0#32 }⟩) = false := by decide
theorem test_wf_refuses_ill_formed_event : (HostEvent.requestThenReset (reqA 0x8#4 0#32)).wf = false := by decide
theorem test_wf_refuses_empty_name : nameOk [] = false := by decide
theorem test_wf_refuses_digit_first : nameOk ['1', 'v'] = false := by decide
theorem test_wf_refuses_other_character : nameOk ['v', '='] = false := by decide
theorem test_wf_refuses_large_decimal : Operand.wf (.dec (2 ^ 31)) = false := by decide
theorem test_wf_refuses_small_decimal : Operand.wf (.dec (-2 ^ 31 - 1)) = false := by decide
theorem test_wf_refuses_operand_name : Operand.wf (.held ['0']) = false := by decide
theorem test_wf_refuses_single_for_decode : ResultName.fits (.single ['x']) .decode = false := by decide
theorem test_wf_refuses_single_bad_name : ResultName.fits (.single []) .add = false := by decide
theorem test_wf_refuses_triple_for_add : ResultName.fits (.triple ['s'] ['e'] ['m']) .add = false := by decide
theorem test_wf_refuses_triple_bad_name : ResultName.fits (.triple ['s'] [] ['m']) .decode = false := by decide
theorem test_wf_refuses_operand_count : RequestLine.wf ⟨.single ['x'], .add, [.dec 1]⟩ = false := by decide
theorem test_wf_refuses_line_operand : RequestLine.wf ⟨.single ['x'], .ln, [.held []]⟩ = false := by decide
theorem test_wf_refuses_line_result : RequestLine.wf ⟨.single ['x'], .decode, [.dec 1]⟩ = false := by decide

/-! ## One step -/

/-- Table 2.1: bits 15:0 ignored. -/
theorem test_decode_4049ABCD :
    portsAfter (presenting (reqA 0x0#4 0x4049ABCD#32)) = some (.triple 0#1 1#32 0xC9#8) := by decide
/-- Table 2.1: negative zero, the implicit bit still forced on. -/
theorem test_decode_negative_zero :
    portsAfter (presenting (reqA 0x0#4 0x80000000#32)) = some (.triple 1#1 0xFFFFFF81#32 0x80#8) := by decide
/-- Table 2.2: `e + 127 = 327`, bit 8 into bit 31. -/
theorem test_encode_wraps_200 :
    portsAfter (presenting (reqTriple 0x1#4 0#1 200#32 0x80#8)) = some (.word 0xA3800000#32) := by decide
/-- Table 2.2: exponent −128. -/
theorem test_encode_wraps_negative :
    portsAfter (presenting (reqTriple 0x1#4 0#1 0xFFFFFF80#32 0x80#8)) = some (.word 0xFF800000#32) := by decide
/-- S7, a tie away from zero. -/
theorem test_f2bf_tie :
    portsAfter (presenting (reqA 0x2#4 0xC0808000#32)) = some (.word 0xC0810000#32) := by decide
/-- Table 2.3: a subnormal is truncated. -/
theorem test_f2bf_subnormal :
    portsAfter (presenting (reqA 0x2#4 0x807FFFFF#32)) = some (.word 0x807F0000#32) := by decide
/-- Table 2.4. -/
theorem test_bf2f_clears_low_half :
    portsAfter (presenting (reqA 0x3#4 0x3F80ABCD#32)) = some (.word 0x3F800000#32) := by decide
/-- S5. -/
theorem test_i2bf_minus_257 :
    portsAfter (presenting (reqA 0x4#4 0xFFFFFEFF#32)) = some (.word 0xC3800000#32) := by decide
/-- Table 2.5: −2^31. -/
theorem test_i2bf_least :
    portsAfter (presenting (reqA 0x4#4 0x80000000#32)) = some (.word 0xCF000000#32) := by decide
/-- Table 2.6: −1.5 toward zero (D14). -/
theorem test_bf2i_minus_one_and_a_half :
    portsAfter (presenting (reqA 0x5#4 0xBFC00000#32)) = some (.word 0xFFFFFFFF#32) := by decide
/-- Table 2.6: −2^31 saturates too. -/
theorem test_bf2i_saturates :
    portsAfter (presenting (reqA 0x5#4 0xCF000000#32)) = some (.word 0x7FFFFFFF#32) := by decide
/-- S1. -/
theorem test_add_fixture :
    portsAfter (presenting (reqAB 0x6#4 0x3F9A0000#32 0x3FB30000#32)) = some (.word 0x40260000#32) := by decide
/-- R69: the sign after the alignment; sign first would give 0x3F7C0000. -/
theorem test_add_sign_after_alignment :
    portsAfter (presenting (reqAB 0x6#4 0x3F800000#32 0xBC400000#32)) = some (.word 0x3F7E0000#32) := by decide
/-- Table 2.8. -/
theorem test_sub_negative :
    portsAfter (presenting (reqAB 0x7#4 0x3F800000#32 0x40400000#32)) = some (.word 0xC0000000#32) := by decide
/-- R76: `e = −133` wraps. -/
theorem test_sub_wraps :
    portsAfter (presenting (reqAB 0x7#4 0x00810000#32 0x00800000#32)) = some (.word 0xFD000000#32) := by decide
/-- Table 2.9: product 0xFE01, truncated. -/
theorem test_mul_largest :
    portsAfter (presenting (reqAB 0x8#4 0x3FFF0000#32 0x3FFF0000#32)) = some (.word 0x407E0000#32) := by decide
/-- Table 2.9: `e + 127 = 381`, bit 8 into bit 31. -/
theorem test_mul_wraps :
    portsAfter (presenting (reqAB 0x8#4 0x7F000000#32 0x7F000000#32)) = some (.word 0xBE800000#32) := by decide
/-- R86's example, ln 2. -/
theorem test_ln_two :
    portsAfter (presenting (reqA 0x9#4 0x40000000#32)) = some (.word 0x3F2F0000#32) := by decide +kernel
/-- Table 2.10: zero after masking. -/
theorem test_ln_zero :
    portsAfter (presenting (reqA 0x9#4 0x0000FFFF#32)) = some (.word 0x7F800000#32) := by decide

/-- P4's last request: a reserved code is refused. -/
theorem test_reserved_code_refused :
    refusalOf (presenting (reqAB 0xC#4 0#32 0#32)) = some (.reservedOp 0xC#4) := by decide
/-- R113: BF.ADD without `B`. -/
theorem test_undriven_port_refused :
    refusalOf (presenting (reqA 0x6#4 0#32)) = some (.portNotDriven .b) := by decide
/-- The request `withFetchWord` presents is the one that runs: BF.I2BF of 0 gives canonical zero (R60). -/
theorem test_fetch_word_runs : portsAfter (State.reset.withFetchWord 8 0x4) = some (.word 0x00000000#32) := by decide
/-- P5's second event: the abandoned request answers nothing. -/
theorem test_abandoned_request_answers_nothing :
    portsAfter { State.reset with events := [.requestThenReset (reqAB 0x8#4 0xC0400000#32 0xC0400000#32)] } =
      some OutPorts.silent := by decide

/-! ## Other values of the parameters -/

/-- U9: −1.5 gives −2 under `floor`. -/
theorem test_bf2i_floor :
    (match exec .bf2i (withParams .floor .netShift 0xBFC00000#32) with
      | .next t => t.out.y
      | _ => none) = some 0xFFFFFFFE#32 := by decide
/-- D13: 2^24 saturates under `unbiased`. -/
theorem test_bf2i_unbiased :
    (match exec .bf2i (withParams .towardZero .unbiased 0x4B800000#32) with
      | .next t => t.out.y
      | _ => none) = some 0x7FFFFFFF#32 := by decide
/-- D8: under `mask8` the exponent of table 2.2's `e = 200` does not reach bit 31. -/
theorem test_pack_mask8 : pack .mask8 0#1 200 0x80 = 0x23800000#32 := by decide

/-! ## Text (R48's examples) -/

theorem test_text_add :
    readLine "v2 = BF.ADD 0x3F9A0000, 0x3FB30000".toList =
      some ⟨.single ['v', '2'], .add, [.hex 0x3F9A0000#32, .hex 0x3FB30000#32]⟩ := by decide
theorem test_text_decode :
    readLine "(s, e, m) = BF.DECODE v2".toList =
      some ⟨.triple ['s'] ['e'] ['m'], .decode, [.held ['v', '2']]⟩ := by decide
theorem test_text_encode :
    (readLine "v3 = BF.ENCODE 0, -127, 0x00".toList).bind (lineRequest []) =
      some (reqTriple 0x1#4 0#1 0xFFFFFF81#32 0#8) := by decide

/-! ## Witnesses: a state and operands that meet the hypotheses of each statement, at the bounds of its clauses -/

theorem witness_EveryCodeSelectsOneOperationOrIsReserved : (9#4).toNat < 10 ∧ 10 ≤ (10#4).toNat := by decide
theorem witness_WrittenRequestLineReadsBack :
    RequestLine.wf ⟨.triple ['s'] ['e', '2'] ['m'], .decode, [.hex 0xFFFFFFFF#32]⟩ = true ∧
      RequestLine.wf ⟨.single ['v'], .encode, [.dec 0, .dec (-2 ^ 31), .held ['x']]⟩ = true := by decide
theorem witness_LineOperandsGoToPortsInOrder :
    Instr.bf2f.reads = [.a] ∧ Instr.sub.reads = [.a, .b] ∧
      operandWord [] (.dec 1) = some 1#32 ∧ operandWord [] (.dec (-127)) = some 0xFFFFFF81#32 ∧
      operandWord [(['m'], 255#32)] (.held ['m']) = some 255#32 ∧ (1#32).toNat < 2 ∧ (255#32).toNat < 256 := by decide
theorem witness_StepRunsTheDecodedOperation :
    (presenting (reqAB 0x6#4 1#32 2#32)).events = .request (reqAB 0x6#4 1#32 2#32) :: [] ∧
      decode (reqAB 0x6#4 1#32 2#32).op = .op .add := by decide
theorem witness_IdleStepChangesNothing : State.reset.events = [] := by decide
theorem witness_OperationsReadAndWriteOnlyTheirPorts :
    (drivenAB 1#32 2#32).inp.drives .bf2f = true ∧ (drivenAB 1#32 3#32).params = (drivenAB 1#32 2#32).params ∧
      (drivenAB 1#32 3#32).inp.agreeFor (drivenAB 1#32 2#32).inp .bf2f ∧ drivenAB 1#32 3#32 ≠ drivenAB 1#32 2#32 :=
  ⟨by decide, rfl, by simp [InPorts.agreeFor, Instr.reads, InPorts.agreeAt, drivenAB, State.driveAB], by decide⟩
theorem witness_UndrivenPortIsRefused :
    Instr.mul.reads.find? (fun q => !(presenting (reqA 0x8#4 1#32)).inp.driven q) = some .a ∧
      Instr.encode.reads.find? (fun q => !State.reset.inp.driven q) = some .sIn := by decide
theorem witness_OperationsChangeOnlyTheResponse :
    ∃ t, exec .add (drivenAB 0x3F800000#32 0x40000000#32) = .next t := ⟨_, rfl⟩
theorem witness_ParametersNeverChange : ∃ t, step (presenting (reqA 0x3#4 1#32)) = .next t := ⟨_, rfl⟩
theorem witness_LowHalfOfBf16OperandIsIgnored :
    upperHalf 0x3F80ABCD#32 = upperHalf 0x3F800000#32 ∧ upperHalf 0x0000FFFF#32 = upperHalf 0#32 := by decide
theorem witness_Bf16ResultsAreCanonical :
    ∃ t y, exec .ln (drivenAB 0#32 0#32) = .next t ∧ t.out.y = some y ∧ Instr.ln ≠ .bf2i ∧
      ∀ a, (drivenAB 0#32 0#32).inp.a = some a → lnNormal a = true ∨ upperHalf a = 0#16 :=
  ⟨_, _, rfl, rfl, by decide, by intro a h; cases h; decide⟩
/-- For every statement whose only hypothesis is what stands on `A`, or on `A` and `B`. -/
theorem witness_operands_on_ports :
    (drivenAB 0x80000000#32 0x7FFFFFFF#32).inp.a = some 0x80000000#32 ∧
      (drivenAB 0x80000000#32 0x7FFFFFFF#32).inp.b = some 0x7FFFFFFF#32 := by decide
theorem witness_EncodeAnswersThePackedTriple :
    (drivenTriple 1#1 0xFFFFFF81#32 0xFF#8).inp.sIn = some 1#1 ∧
      (drivenTriple 1#1 0xFFFFFF81#32 0xFF#8).inp.eIn = some 0xFFFFFF81#32 ∧
      (drivenTriple 1#1 0xFFFFFF81#32 0xFF#8).inp.mIn = some 0xFF#8 ∧ defaultParams.packWrap = .word32 ∧
      s32 0xFFFFFF81#32 + 127 = 0 ∧ s32 128#32 + 127 = 255 ∧
      ({ defaultParams with packWrap := .mask8 } : Params).packWrap = .mask8 := by decide
theorem witness_F2bfAnswersTheIntegerForm :
    (0x00800000#32).toNat / 2 ^ 23 % 2 ^ 8 = 1 ∧ (0xFF7FFFFF#32).toNat / 2 ^ 23 % 2 ^ 8 = 254 ∧
      (0x807FFFFF#32).toNat / 2 ^ 23 % 2 ^ 8 = 0 ∧ (0x7F800001#32).toNat / 2 ^ 23 % 2 ^ 8 = 255 := by decide
theorem witness_I2bfAnswersTheClosedForm : s32 0#32 = 0 ∧ s32 0x80000000#32 ≠ 0 := by decide
theorem witness_Bf2iAnswersByExponentRange :
    (drivenAB 0x3F7F0000#32 0#32).params.negRound = .towardZero ∧
      (drivenAB 0x3F7F0000#32 0#32).params.satTest = .netShift ∧ upperHalf 0x0000FFFF#32 = 0#16 ∧
      upperHalf 0x3F7F0000#32 ≠ 0#16 ∧
      [0x3F7F0000#32, 0x3F800000#32, 0x42FF0000#32, 0x43000000#32, 0x4EFF0000#32, 0x4F000000#32].map
          (fun a : Word => a.toNat / 2 ^ 23 % 2 ^ 8) = [126, 127, 133, 134, 157, 158] := by decide
theorem witness_Bf2iRoundsTheValueAtEveryParameter :
    (withParams .floor .unbiased 0xBFC00000#32).params.negRound = .floor ∧
      (withParams .towardZero .netShift 0xBFC00000#32).params.negRound = .towardZero ∧
      [0x4B7F0000#32, 0x4B800000#32, 0x4EFF0000#32, 0x4F000000#32].map (fun a : Word => a.toNat / 2 ^ 23 % 2 ^ 8) =
        [150, 151, 157, 158] := by decide
theorem witness_EncodeOfDecodeClearsTheLowHalf :
    (drivenAB 0x3F9AFFFF#32 0#32).inp.a = some 0x3F9AFFFF#32 ∧
      portsAfter (presenting (reqA 0x0#4 0x3F9AFFFF#32)) = some (.triple 0#1 0#32 0x9A#8) ∧
      (drivenTriple 0#1 0#32 0x9A#8).inp.sIn = some 0#1 ∧ (drivenTriple 0#1 0#32 0x9A#8).inp.eIn = some 0#32 ∧
      (drivenTriple 0#1 0#32 0x9A#8).inp.mIn = some 0x9A#8 := by decide
theorem witness_F2bfOfBf2fIsTheIdentity : (0x7F810000#32).extractLsb' 0 16 = 0#16 := by decide
theorem witness_I2bfOfNegationSetsTheSign : 0 < s32 1#32 ∧ 0 < s32 0x7FFFFFFF#32 := by decide
theorem witness_Bf2iOfI2bfKeepsEightLeadingBits :
    State.reset.params.satTest = .netShift ∧ s32 0x80000000#32 = -2 ^ 31 := by decide
/-- The clauses of the aligned sum: an exact cancellation, a carry, and neither. -/
theorem witness_AddAndSubAnswerTheAlignedSum :
    signedSum (opnd 0x3F800000#32) (opnd 0x3F800000#32) true = 0 ∧
      signedSum (opnd 0x3F800000#32) (opnd 0x3F800000#32) false = 0x100 ∧
      signedSum (opnd 0x3F800000#32) (opnd 0x3F7F0000#32) false = 0xFF := by decide
theorem witness_AdditionLaws : isZeroBF 0x80001234#32 = true ∧ isZeroBF 0x00010000#32 = false := by decide
/-- The clauses of the wrap: field 0, field 255, below 0, and 256. -/
theorem witness_AddAndSubWrapOutOfRangeExponents :
    State.reset.params.packWrap = .word32 ∧
      (normalizeSum (signedSum (opnd 0x00010000#32) (opnd 0#32) false) (-127)).e + 127 = 0 ∧
      (normalizeSum (signedSum (opnd 0x7F7F0000#32) (opnd 0x7F7F0000#32) false) 127).e + 127 = 255 ∧
      (normalizeSum (signedSum (opnd 0x00810000#32) (opnd 0x00800000#32) true) (-126)).e + 127 = -6 ∧
      (normalizeSum (signedSum (opnd 0x7FFF0000#32) (opnd 0x7FFF0000#32) false) 128).e + 127 = 256 := by decide
theorem witness_MulAnswersTheTruncatedProduct :
    (opnd 0#32).m * (opnd 0x3F800000#32).m = 0 ∧ (opnd 0x3F800000#32).m * (opnd 0x3F800000#32).m = 0x4000 ∧
      (opnd 0x3F800000#32).m * (opnd 0x3FFF0000#32).m = 0x7F80 ∧
      (opnd 0x3FFF0000#32).m * (opnd 0x3FFF0000#32).m = 0xFE01 := by decide
theorem witness_MultiplicationLaws :
    (normalizeProduct (opnd 0x5F000000#32) (opnd 0x5F800000#32)) = ⟨0x80, 127⟩ ∧
      (normalizeProduct (opnd 0x7F000000#32) (opnd 0x7F000000#32)).e + 127 = 381 ∧
      (normalizeProduct (opnd 0x00800000#32) (opnd 0x00800000#32)).e + 127 = -125 := by decide
theorem witness_MultiplierInternalRanges :
    (normalizeProduct (opnd 0#32) (opnd 0x3F800000#32)).mag = 0 ∧
      (normalizeProduct (opnd 0x3FFF0000#32) (opnd 0x3F800000#32)).mag = 0xFF ∧
      (normalizeProduct (opnd 0x3FFF0000#32) (opnd 0x3FFF0000#32)).mag = 0xFE ∧
      (rawProduct (opnd 0x3FFF0000#32) (opnd 0x3FFF0000#32)).mag = 0x1FC := by decide
theorem witness_LnAnswersTheNineRequestProgram :
    lnNormal 0x00800000#32 = true ∧ lnNormal 0x7F7FFFFF#32 = true := by decide
theorem witness_LnOfZeroAnswersItsFixedWord :
    (drivenAB 0x0000FFFF#32 0#32).inp.a = some 0x0000FFFF#32 ∧ upperHalf 0x0000FFFF#32 = 0#16 ∧
      (drivenAB 0x0000FFFF#32 0#32).params.lnZero = .signClear ∧
      ({ defaultParams with lnZero := .signSet } : Params).lnZero = .signSet := by decide
theorem witness_LnOutsideItsDomainStillAnswers :
    [0xC0000000#32, 0x80000000#32, 0x007F0000#32, 0x7F800000#32].map
      (fun a => (upperHalf a == 0#16, lnNormal a)) = [(false, false), (false, false), (false, false), (false, false)] := by
  decide
theorem witness_LnExponentConvertsExactly : (-127 : Int) ≤ -127 ∧ (-127 : Int) ≤ 128 ∧ (128 : Int) ≤ 128 := by decide
theorem witness_LnIsWithinItsErrorBoundOnOneToTwo :
    (drivenAB 0x3FFFFFFF#32 0#32).params = defaultParams ∧ (drivenAB 0x3FFFFFFF#32 0#32).inp.a = some 0x3FFFFFFF#32 ∧
      0x3F800000 ≤ (0x3F800000#32).toNat ∧ (0x3FFFFFFF#32).toNat < 0x40000000 := by decide
theorem witness_ResetLeavesNoPortValue :
    ({ drivenAB 1#32 2#32 with events := [.reset] } : State).events = .reset :: [] := by decide
theorem witness_ResetEventClearsThePorts :
    ({ drivenAB 1#32 2#32 with events := [.requestThenReset (reqA 0x4#4 1#32)] } : State).events =
      .requestThenReset (reqA 0x4#4 1#32) :: [] ∧ (reqA 0x4#4 1#32).wf = true := by decide
theorem witness_ResetHasNoVisibleEffect :
    ({ drivenAB 1#32 2#32 with events := [.reset, .request (reqA 0x4#4 1#32)] } : State).events =
      .reset :: .request (reqA 0x4#4 1#32) :: [] := by decide
theorem witness_AbandonedRequestHasNoResponse :
    (reqAB 0x8#4 0xC0400000#32 0xC0400000#32).wf = true ∧
      ({ State.reset with events := [.requestThenReset (reqAB 0x8#4 0xC0400000#32 0xC0400000#32),
          .request (reqAB 0x8#4 0xC0400000#32 0xC0400000#32)] } : State).events =
        .requestThenReset (reqAB 0x8#4 0xC0400000#32 0xC0400000#32) ::
          .request (reqAB 0x8#4 0xC0400000#32 0xC0400000#32) :: [] := by decide
/-- Two well-formed events, then a reserved code, then one more; 3 is the least length that reaches it. -/
theorem witness_RefusedRunStaysRefused :
    ({ State.reset with events := [.request (reqA 0x4#4 1#32), .reset, .request (reqA 0xA#4 0#32), .reset] } : State).events =
        [.request (reqA 0x4#4 1#32), .reset] ++ .request (reqA 0xA#4 0#32) :: [.reset] ∧
      [HostEvent.request (reqA 0x4#4 1#32), .reset].all HostEvent.wf = true ∧ 0xA ≤ (reqA 0xA#4 0#32).op.toNat ∧
      [HostEvent.request (reqA 0x4#4 1#32), .reset].length < 3 := by decide
theorem witness_ReservedCodeIsRefused :
    (presenting (reqA 0xF#4 0#32)).events = .request (reqA 0xF#4 0#32) :: [] ∧ 0xA ≤ (reqA 0xF#4 0#32).op.toNat ∧
      0xA ≤ (reqA 0xA#4 0#32).op.toNat := by decide
theorem witness_RunAnswersEachRequestAsIfAlone :
    ({ State.reset with events := [.request (reqA 0x4#4 1#32), .reset, .requestThenReset (reqA 0x4#4 1#32)] } : State).events =
        [.request (reqA 0x4#4 1#32), .reset] ++ [.requestThenReset (reqA 0x4#4 1#32)] ∧
      [HostEvent.request (reqA 0x4#4 1#32), .reset].all HostEvent.wf = true ∧ (reqA 0x4#4 1#32).wf = true := by decide
theorem witness_DutifulRunGoesOn :
    dutiful { State.reset with events := [.request (reqAB 0x6#4 1#32 2#32), .reset] } = true := by decide
/-- A unit that has answered one request. -/
def answeredOnce : State := State.reset.respond (.word 0x3F800000#32)
theorem witness_StepKeepsResponsesLegal :
    answeredOnce.Inv ∧ ∃ t, step answeredOnce = .next t :=
  ⟨{ legal := fun o h => .inl ⟨0x3F800000#32, by simpa [answeredOnce, State.reset] using h⟩
     ports := .inr rfl }, _, rfl⟩

end Sys2Proof.Tests
end

section
/-! Reset: the unit's state after it (R26), and what a step does with a reset event (R108). -/

namespace Sys2Proof.Machine

@[simp] theorem State.reset_params : State.reset.params = defaultParams := rfl
@[simp] theorem State.reset_op : State.reset.op = none := rfl
@[simp] theorem State.reset_inp : State.reset.inp = InPorts.idle := rfl
@[simp] theorem State.reset_out : State.reset.out = OutPorts.silent := rfl

/-- A reset event with no request in flight always goes on, and to the reset unit. -/
theorem step_of_reset {s : State} {rest : List HostEvent} (h : s.events = .reset :: rest) :
    step s = .next (s.resetUnit rest) := by
  simp [step, takeEvent, h]

/-- Settles O42: `State.reset` is R26's table read off field by field, and the only step a reset event allows is
`resetUnit`, which keeps the parameters and with them the constants. -/
theorem resetLeavesNoPortValue : Obligations.ResetLeavesNoPortValue := by
  unfold Obligations.ResetLeavesNoPortValue
  constructor
  · exact ⟨State.reset_op, State.reset_inp, State.reset_out, congrArg Params.consts State.reset_params⟩
  · intro s rest h
    exact ⟨s.resetUnit rest, step_of_reset h, congrArg Params.consts (s.resetUnit_params rest)⟩

end Sys2Proof.Machine
end

section
/-! Encoding (30_encoding.md R43 to R45): `decode` and `encode` are inverse on the ten codes of R43's table, every code
from 10 up is reserved, and what a step does with a request follows from what its code decodes to (R97). -/

namespace Sys2Proof

/-! ## The table search -/

/-- What the search finds stands in the table under the code searched for. -/
theorem mem_of_findOp_eq_some {code : BitVec 4} {i : Instr} {rows : List OpRow} (h : findOp code rows = some i) :
    ⟨code, i⟩ ∈ rows := by
  induction rows with
  | nil => cases h
  | cons row rest ih =>
    rw [findOp] at h
    split at h
    next hcode =>
      obtain rfl := hcode
      obtain rfl := Option.some.inj h
      exact List.mem_cons_self
    next => exact List.mem_cons_of_mem row (ih h)

theorem findOp_eq_none_iff {code : BitVec 4} {rows : List OpRow} :
    findOp code rows = none ↔ ∀ row ∈ rows, row.code ≠ code := by
  induction rows with
  | nil => simp [findOp]
  | cons row rest ih => by_cases hcode : row.code = code <;> simp [findOp, hcode, ih]

/-- R43's table lists the codes 0 to 9, each once and in order. -/
theorem opTable_codes : opTable.map (·.code.toNat) = List.range 10 := by decide

theorem encode_of_mem_opTable : ∀ row ∈ opTable, encode row.instr = row.code := by decide

/-- R44: the codes with no row are those from 10 up. -/
theorem findOp_opTable_eq_none_iff {code : BitVec 4} : findOp code opTable = none ↔ 10 ≤ code.toNat := by
  have hmem : code.toNat ∈ opTable.map (·.code.toNat) ↔ code.toNat < 10 := by rw [opTable_codes, List.mem_range]
  rw [findOp_eq_none_iff, ← Nat.not_lt, ← hmem]
  simp [← BitVec.toNat_inj]

/-! ## The decoder -/

theorem decode_encode (i : Instr) : decode (encode i) = .op i := by
  cases i <;> rfl

/-- A code selects an operation exactly when it is that operation's code. -/
theorem decode_eq_op_iff {code : BitVec 4} {i : Instr} : decode code = .op i ↔ encode i = code := by
  constructor
  · intro h
    rw [decode] at h
    split at h
    next hfind =>
      obtain rfl := Decoded.op.inj h
      exact encode_of_mem_opTable _ (mem_of_findOp_eq_some hfind)
    next => cases h
  · rintro rfl
    exact decode_encode i

theorem decode_of_reserved {code : BitVec 4} (h : 10 ≤ code.toNat) : decode code = .reserved code := by
  simp [decode, findOp_opTable_eq_none_iff.2 h]

theorem exists_decode_eq_op {code : BitVec 4} (h : code.toNat < 10) : ∃ i, decode code = .op i := by
  cases hfind : findOp code opTable with
  | none => exact absurd (findOp_opTable_eq_none_iff.1 hfind) (Nat.not_le.2 h)
  | some i => exact ⟨i, by simp [decode, hfind]⟩

/-- Settles O1: each row's code is its operation's code, so the code decodes to the operation. -/
theorem operationCodesFollowTheTable : Obligations.OperationCodesFollowTheTable := by
  unfold Obligations.OperationCodesFollowTheTable
  intro row hrow
  suffices hcode : encode row.2.1 = row.1 ∧ String.ofList row.2.1.mnemonic = row.2.2 from
    ⟨decode_eq_op_iff.2 hcode.1, hcode⟩
  revert row
  decide

/-- Settles O2: below 10 the operation selected is the only one with that code, as `decode` inverts `encode`; from 10 up
an operation with that code would be selected by it, but the code is reserved. -/
theorem everyCodeSelectsOneOperationOrIsReserved : Obligations.EveryCodeSelectsOneOperationOrIsReserved := by
  unfold Obligations.EveryCodeSelectsOneOperationOrIsReserved
  intro code
  constructor
  · intro hlow
    obtain ⟨i, hi⟩ := exists_decode_eq_op hlow
    refine ⟨i, hi, fun j => ?_⟩
    rw [← decode_eq_op_iff, hi, Decoded.op.injEq, eq_comm]
  · intro hhigh
    have hreserved := decode_of_reserved hhigh
    refine ⟨hreserved, fun j hj => ?_⟩
    have hop := decode_eq_op_iff.2 hj
    simp [hreserved] at hop

end Sys2Proof

namespace Sys2Proof.Machine

/-- A request alone is one step: the unit serves it with its ports driven and the event taken. -/
theorem step_of_request {s : State} {r : Request} {rest : List HostEvent} (h : s.events = .request r :: rest) :
    step s = serve (s.present r rest) := by
  simp [step, takeEvent, h]

/-- R97: a request whose code is reserved is refused by that code. -/
theorem serve_of_reserved {s : State} {code c : BitVec 4} (hop : s.op = some code) (hc : decode code = .reserved c) :
    serve s = .refused (.reservedOp c) := by
  simp [serve, hop, hc]

/-- Settles O46: the step serves the request, and its code decodes to `reserved`. -/
theorem reservedCodeIsRefused : Obligations.ReservedCodeIsRefused := by
  unfold Obligations.ReservedCodeIsRefused
  intro s r rest hev hcode
  rw [step_of_request hev]
  exact serve_of_reserved (s.present_op r rest) (decode_of_reserved hcode)

end Sys2Proof.Machine
end

section
/-! bf16_codec (40_codec.md): the fields of a word as arithmetic on its value, the value of a packed word, and from
these what each of the six conversions answers. -/

namespace Sys2Proof.Machine

/-! ## Fields of a word as arithmetic on its value (R37, R51, R53) -/

section WordFields
variable (w : Word)

@[simp] theorem fieldsOf_s_toNat : (fieldsOf w).s.toNat = w.toNat / 2 ^ 31 := by
  have := w.isLt
  simp only [fieldsOf, BitVec.extractLsb'_toNat, Nat.shiftRight_eq_div_pow]
  omega

@[simp] theorem fieldsOf_e_toNat : (fieldsOf w).e.toNat = w.toNat / 2 ^ 23 % 2 ^ 8 := by
  simp [fieldsOf, Nat.shiftRight_eq_div_pow]

@[simp] theorem fieldsOf_f_toNat : (fieldsOf w).f.toNat = w.toNat / 2 ^ 16 % 2 ^ 7 := by
  simp [fieldsOf, Nat.shiftRight_eq_div_pow]

theorem upperHalf_toNat : (upperHalf w).toNat = w.toNat / 2 ^ 16 := by
  have := w.isLt
  simp only [upperHalf, BitVec.extractLsb'_toNat, Nat.shiftRight_eq_div_pow]
  omega

theorem isZeroBF_iff : isZeroBF w = true ↔ w.toNat / 2 ^ 16 % 2 ^ 15 = 0 := by
  simp [isZeroBF, ← BitVec.toNat_inj, Nat.shiftRight_eq_div_pow]

theorem unbias_fieldsOf : unbias (fieldsOf w).e = (w.toNat / 2 ^ 23 % 2 ^ 8 : Nat) - 127 := by
  rw [unbias, fieldsOf_e_toNat]

theorem significand_fieldsOf_toNat : (significand (fieldsOf w).f).toNat = 0x80 + w.toNat / 2 ^ 16 % 2 ^ 7 := by
  rw [significand_toNat, fieldsOf_f_toNat]

/-- R59: the mask keeps the upper half. -/
theorem clearLow_toNat : (clearLow w).toNat = w.toNat / 2 ^ 16 * 2 ^ 16 := by
  have hshift : clearLow w = w >>> 16 <<< 16 := (BitVec.shiftLeft_ushiftRight (x := w) (n := 16)).symm
  have := w.isLt
  rw [hshift, BitVec.toNat_shiftLeft, BitVec.toNat_ushiftRight, Nat.shiftLeft_eq, Nat.shiftRight_eq_div_pow]
  omega

/-- A word is its three bf16 fields and its low half, each at its place. -/
theorem word_toNat_eq_fields :
    w.toNat = (fieldsOf w).s.toNat * 2 ^ 31 + (fieldsOf w).e.toNat * 2 ^ 23 + (fieldsOf w).f.toNat * 2 ^ 16 +
      (w.extractLsb' 0 16).toNat := by
  have := w.isLt
  simp only [fieldsOf_s_toNat, fieldsOf_e_toNat, fieldsOf_f_toNat, BitVec.extractLsb'_toNat, Nat.shiftRight_zero]
  omega

end WordFields

/-! ## Values of words -/

theorem s32_u32 {v : Int} (hlo : -2 ^ 31 ≤ v) (hhi : v < 2 ^ 31) : s32 (u32 v) = v :=
  BitVec.toInt_ofInt_eq_self (by decide) hlo hhi

theorem s32_u32_unbias (e : BitVec 8) : s32 (u32 (unbias e)) = unbias e := by
  obtain ⟨hlo, hhi⟩ := unbias_range e
  exact s32_u32 (by omega) (by omega)

theorem intSign_toNat (x : Int) : (intSign x).toNat = if x < 0 then 1 else 0 := by
  unfold intSign
  split <;> rfl

theorem u32_toNat {v : Int} (hlo : 0 ≤ v) (hhi : v < 2 ^ 32) : (u32 v).toNat = v.toNat := by
  rw [BitVec.toNat_ofInt, Int.emod_eq_of_lt hlo (by exact_mod_cast hhi)]

theorem signed_fieldsOf (w : Word) (m : Nat) :
    signed (fieldsOf w).s m = (if 2 ^ 31 ≤ w.toNat then -1 else 1) * (m : Int) := by
  have hlt := w.isLt
  have hs : (fieldsOf w).s = 1#1 ↔ 2 ^ 31 ≤ w.toNat := by
    rw [← BitVec.toNat_inj, fieldsOf_s_toNat, BitVec.toNat_ofNat]
    omega
  simp only [signed, hs]
  split <;> ring

/-! ## A packed word whose exponent is in range (R52) -/

section PackInRange
variable (wrap : PackWrap) (s : BitVec 1) {e : Int} (m : Nat)

/-- Nothing of a biased exponent in range reaches bit 31, so `PACK_WRAP` makes no difference. -/
theorem pack_sign_of_inRange (hlo : 0 ≤ e + 127) (hhi : e + 127 ≤ 255) :
    (pack wrap s e m).getLsbD 31 = s.getLsbD 0 := by
  have hbit : (u32 (e + 127)).getLsbD 8 = false := by
    rw [BitVec.getLsbD, u32_toNat hlo (by omega)]
    exact Nat.testBit_lt_two_pow (by omega)
  rw [pack_sign, hbit, Bool.and_false, Bool.or_false]

theorem pack_exponent_of_inRange (hlo : 0 ≤ e + 127) (hhi : e + 127 ≤ 255) :
    ((pack wrap s e m).extractLsb' 23 8).toNat = (e + 127).toNat := by
  rw [pack_exponent, BitVec.extractLsb'_toNat, u32_toNat hlo (by omega), Nat.shiftRight_zero]
  omega

/-- R52's plain packing `(s, e + 127, m[6:0])`. -/
theorem pack_toNat (hlo : 0 ≤ e + 127) (hhi : e + 127 ≤ 255) :
    (pack wrap s e m).toNat = s.toNat * 2 ^ 31 + (e + 127).toNat * 2 ^ 23 + m % 2 ^ 7 * 2 ^ 16 := by
  have hs : (fieldsOf (pack wrap s e m)).s = s := by
    apply BitVec.eq_of_getLsbD_eq
    intro i hi
    obtain rfl : i = 0 := by omega
    simpa [fieldsOf] using pack_sign_of_inRange wrap s m hlo hhi
  have he : (fieldsOf (pack wrap s e m)).e.toNat = (e + 127).toNat := pack_exponent_of_inRange wrap s m hlo hhi
  have hf : (fieldsOf (pack wrap s e m)).f.toNat = m % 2 ^ 7 := by
    rw [fieldsOf, pack_fraction, BitVec.toNat_ofNat]
  rw [word_toNat_eq_fields, hs, he, hf, pack_low, BitVec.toNat_ofNat, Nat.zero_mod, Nat.add_zero]

end PackInRange

/-! ## BF.DECODE and BF.ENCODE -/

/-- Settles O14: the three fields as arithmetic on the word; the unbiased exponent fits a 32-bit word. -/
theorem decodeAnswersTheFields : Obligations.DecodeAnswersTheFields := by
  unfold Obligations.DecodeAnswersTheFields
  intro s a ha
  refine ⟨_, _, _, exec_decode ha, fieldsOf_s_toNat a, ?_, significand_fieldsOf_toNat a⟩
  rw [s32_u32_unbias, unbias_fieldsOf]

/-- Settles O15: the fields of a packed word, for the exponent `s32 e` whose biased bits are `e + 127`. -/
theorem encodeAnswersThePackedTriple : Obligations.EncodeAnswersThePackedTriple := by
  unfold Obligations.EncodeAnswersThePackedTriple
  intro s sg e m hs he hm
  have hbiased : u32 (s32 e + 127) = e + 127#32 := by
    rw [u32, BitVec.ofInt_add, BitVec.ofInt_toInt]
    rfl
  refine ⟨_, exec_encode hs he hm, ?_, ?_, pack_low .., ?_, ?_, ?_⟩
  · rw [encodedWord, pack_exponent, hbiased]
  · rw [encodedWord, pack_fraction]
    exact BitVec.eq_of_toNat_eq (by simp)
  · intro hwrap
    rw [encodedWord, pack_sign, hwrap, hbiased, decide_eq_true rfl, Bool.true_and]
  · intro hwrap
    rw [encodedWord, pack_sign, hwrap, decide_eq_false (by decide), Bool.false_and, Bool.or_false]
  · intro hlo hhi
    refine ⟨pack_sign_of_inRange _ _ _ hlo hhi, ?_⟩
    rw [encodedWord, pack_exponent_of_inRange _ _ _ hlo hhi, Int.toNat_of_nonneg hlo]

/-- Settles O16: the fields as arithmetic on the word, and R53's zero test. -/
theorem arithmeticOperandOfAWord : Obligations.ArithmeticOperandOfAWord := by
  unfold Obligations.ArithmeticOperandOfAWord
  intro w
  refine ⟨fieldsOf_s_toNat w, unbias_fieldsOf w, ?_⟩
  simp only [opnd, isZeroBF_iff, significand_fieldsOf_toNat]

/-- Packing a word's own fields loses its low half alone: its exponent is in range, so nothing wraps. -/
theorem pack_fieldsOf (wrap : PackWrap) (w : Word) :
    pack wrap (fieldsOf w).s (unbias (fieldsOf w).e) (significand (fieldsOf w).f).toNat = clearLow w := by
  obtain ⟨hlo, hhi⟩ := unbias_range (fieldsOf w).e
  apply BitVec.eq_of_toNat_eq
  rw [pack_toNat wrap _ _ (by omega) (by omega), clearLow_toNat, fieldsOf_s_toNat, unbias_fieldsOf,
    significand_fieldsOf_toNat]
  have := w.isLt
  omega

/-- Settles O23: BF.ENCODE packs the fields that BF.DECODE answers. -/
theorem encodeOfDecodeClearsTheLowHalf : Obligations.EncodeOfDecodeClearsTheLowHalf := by
  unfold Obligations.EncodeOfDecodeClearsTheLowHalf
  intro s w hw
  refine ⟨_, _, _, exec_decode hw, fun s' hs he hm => ?_⟩
  rw [exec_encode hs he hm, encodedWord, s32_u32_unbias, pack_fieldsOf, clearLow]

/-! ## BF.F2BF and BF.BF2F -/

theorem fp32Normal_iff (a : Word) :
    fp32Normal a = true ↔ 1 ≤ a.toNat / 2 ^ 23 % 2 ^ 8 ∧ a.toNat / 2 ^ 23 % 2 ^ 8 ≤ 254 := by
  have hexp : (fp32Exp a).toNat = a.toNat / 2 ^ 23 % 2 ^ 8 := fieldsOf_e_toNat a
  simp only [fp32Normal, Bool.and_eq_true, decide_eq_true_eq, ne_eq, ← BitVec.toNat_inj, hexp, BitVec.toNat_ofNat]
  omega

/-- R58's integer form: half a unit of the upper half is added, without overflow, and the low half dropped. -/
theorem fp32ToBf16_toNat_of_normal {a : Word} (h : fp32Normal a = true) :
    (fp32ToBf16 a).toNat = (a.toNat + 0x8000) / 2 ^ 16 * 2 ^ 16 := by
  obtain ⟨_, hexp⟩ := (fp32Normal_iff a).1 h
  have hsum : (a + 0x8000#32).toNat = a.toNat + 0x8000 := by
    have := a.isLt
    rw [BitVec.toNat_add, BitVec.toNat_ofNat]
    omega
  rw [fp32ToBf16, if_pos h, clearLow_toNat, hsum]

theorem fp32ToBf16_of_not_normal {a : Word} (h : ¬ fp32Normal a = true) : fp32ToBf16 a = clearLow a := if_neg h

/-- Settles O17: a normal operand takes the integer form, and exponent field 0 or 255 is truncated. -/
theorem f2bfAnswersTheIntegerForm : Obligations.F2bfAnswersTheIntegerForm := by
  unfold Obligations.F2bfAnswersTheIntegerForm
  intro s a ha
  refine ⟨_, exec_f2bf ha, fun hlo hhi => ?_, fun hexp => ?_⟩
  · exact fp32ToBf16_toNat_of_normal ((fp32Normal_iff a).2 ⟨hlo, hhi⟩)
  · have hn : ¬ fp32Normal a = true := by rw [fp32Normal_iff]; omega
    rw [fp32ToBf16_of_not_normal hn, clearLow_toNat]

/-- Settles O19: BF.BF2F answers the masked word. -/
theorem bf2fAnswersTheUpperHalf : Obligations.Bf2fAnswersTheUpperHalf := by
  unfold Obligations.Bf2fAnswersTheUpperHalf
  intro s a ha
  exact ⟨_, exec_bf2f ha, clearLow_toNat a⟩

section Canonical
variable {x : Word}

theorem lowHalf_eq_zero_iff : x.extractLsb' 0 16 = 0#16 ↔ x.toNat % 2 ^ 16 = 0 := by
  rw [← BitVec.toNat_inj, BitVec.extractLsb'_toNat, Nat.shiftRight_zero, BitVec.toNat_ofNat, Nat.zero_mod]

theorem clearLow_of_canonical (h : x.extractLsb' 0 16 = 0#16) : clearLow x = x := by
  rw [lowHalf_eq_zero_iff] at h
  apply BitVec.eq_of_toNat_eq
  rw [clearLow_toNat]
  omega

/-- Below half a unit nothing is rounded up: a canonical word has no low half to lose. -/
theorem fp32ToBf16_of_canonical (h : x.extractLsb' 0 16 = 0#16) : fp32ToBf16 x = x := by
  by_cases hn : fp32Normal x = true
  · rw [lowHalf_eq_zero_iff] at h
    apply BitVec.eq_of_toNat_eq
    rw [fp32ToBf16_toNat_of_normal hn]
    omega
  · rw [fp32ToBf16_of_not_normal hn, clearLow_of_canonical h]

end Canonical

/-- Settles O24: both conversions leave a canonical word as it is. -/
theorem f2bfOfBf2fIsTheIdentity : Obligations.F2bfOfBf2fIsTheIdentity := by
  unfold Obligations.F2bfOfBf2fIsTheIdentity
  intro s x b hx
  refine ⟨x, ?_, ?_⟩
  · rw [answerOnY_bf2f, clearLow_of_canonical hx]
  · rw [answerOnY_f2bf, fp32ToBf16_of_canonical hx]

/-! ## BF.I2BF -/

/-- A magnitude that is normalized already is not shifted left. -/
theorem shiftUp_of_le {x : Scaled} (fuel : Nat) (h : 0x80 ≤ x.mag) : shiftUp fuel x = x := by
  cases fuel with
  | zero => rfl
  | succ n => exact if_neg (by omega)

/-- A magnitude that is normalized already is not shifted right. -/
theorem shiftDown_of_lt {x : Scaled} (fuel : Nat) (h : x.mag < 0x100) : shiftDown fuel x = x := by
  cases fuel with
  | zero => rfl
  | succ n => exact if_neg (by omega)

/-- A normalized magnitude has its leading bit in bit 7 (R72). -/
theorem log2_of_normalized {m : Nat} (hlo : 0x80 ≤ m) (hhi : m < 0x100) : Nat.log2 m = 7 :=
  (Nat.log2_eq_iff (by omega)).2 ⟨hlo, hhi⟩

theorem log2_div_two_pow (n j : Nat) : Nat.log2 (n / 2 ^ j) = Nat.log2 n - j := by
  simp only [Nat.log2_eq_log_two, Nat.log_div_base_pow]

theorem Scaled.eq_mk_iff {x : Scaled} {mag : Nat} {e : Int} :
    x = { mag := mag, e := e } ↔ x.mag = mag ∧ x.e = e := by
  cases x
  rw [Scaled.mk.injEq]

/-- R60's first loop: a magnitude below 0x100 is shifted left until its leading bit is in bit 7. -/
theorem normalizeInt_of_lt {n : Nat} (h0 : 0 < n) (h : n < 0x100) :
    Nat.log2 n ≤ 7 ∧ normalizeInt n = { mag := n * 2 ^ (7 - Nat.log2 n), e := Nat.log2 n } := by
  obtain ⟨hlo, hhi, j, hj, hm, he⟩ := shiftUp_spec { mag := n, e := 7 } h0 h
  have hlog : Nat.log2 n = 7 - j := by
    calc Nat.log2 n = Nat.log2 (n * 2 ^ j / 2 ^ j) := by rw [Nat.mul_div_cancel n (Nat.two_pow_pos j)]
      _ = 7 - j := by rw [log2_div_two_pow, ← hm, log2_of_normalized hlo hhi]
  have hdone : normalizeInt n = shiftUp 7 { mag := n, e := 7 } := shiftDown_of_lt 24 hhi
  refine ⟨by omega, ?_⟩
  rw [hdone, Scaled.eq_mk_iff, hm, he]
  dsimp only
  constructor
  · rw [hlog, Nat.sub_sub_self hj]
  · omega

/-- R60's second loop: a magnitude from 0x100 up is shifted right until its leading bit is in bit 7 (R61). -/
theorem normalizeInt_of_le {n : Nat} (h : 0x100 ≤ n) (hn : n < 2 ^ 32) :
    7 ≤ Nat.log2 n ∧ normalizeInt n = { mag := n / 2 ^ (Nat.log2 n - 7), e := Nat.log2 n } := by
  obtain ⟨hlo, hhi, j, hj, hm, he⟩ := shiftDown_spec { mag := n, e := 7 } (le_trans (by decide) h) hn
  have hlog : Nat.log2 n - j = 7 := by rw [← log2_div_two_pow, ← hm, log2_of_normalized hlo hhi]
  have hdone : normalizeInt n = shiftDown 24 { mag := n, e := 7 } :=
    congrArg (shiftDown 24) (shiftUp_of_le 7 (le_trans (by decide) h))
  refine ⟨by omega, ?_⟩
  rw [hdone, Scaled.eq_mk_iff, hm, he]
  dsimp only
  constructor
  · rw [show Nat.log2 n - 7 = j by omega]
  · omega

/-- R61: the exponent is the place of the leading bit, which both loops bring to bit 7. -/
theorem normalizeInt_eq {n : Nat} (h0 : 0 < n) (hn : n < 2 ^ 32) :
    normalizeInt n =
      { mag := if 7 ≤ Nat.log2 n then n / 2 ^ (Nat.log2 n - 7) else n * 2 ^ (7 - Nat.log2 n), e := Nat.log2 n } := by
  by_cases h : n < 0x100
  · obtain ⟨hlog, heq⟩ := normalizeInt_of_lt h0 h
    rw [heq]
    split
    · simp [show Nat.log2 n = 7 by omega]
    · rfl
  · obtain ⟨hlog, heq⟩ := normalizeInt_of_le (not_lt.1 h) hn
    rw [heq, if_pos hlog]

theorem natAbs_s32_lt (a : Word) : (s32 a).natAbs < 2 ^ 32 := by
  have hlo : -2 ^ 31 ≤ s32 a := BitVec.le_toInt a
  have hhi : s32 a < 2 ^ 31 := BitVec.toInt_lt
  omega

/-- Settles O20: the loops normalize the magnitude, and an exponent up to 31 is packed without wrap. -/
theorem i2bfAnswersTheClosedForm : Obligations.I2bfAnswersTheClosedForm := by
  unfold Obligations.I2bfAnswersTheClosedForm
  intro s a ha
  refine ⟨_, exec_i2bf ha, fun hz => if_pos hz, fun hz => ?_⟩
  have hpos : 0 < (s32 a).natAbs := Int.natAbs_pos.2 hz
  have hlog : Nat.log2 (s32 a).natAbs < 32 := (Nat.log2_lt hpos.ne').2 (natAbs_s32_lt a)
  have hexp : ((Nat.log2 (s32 a).natAbs : Int) + 127).toNat = Nat.log2 (s32 a).natAbs + 127 := by omega
  rw [intToBf16, if_neg hz, normalizeInt_eq hpos (natAbs_s32_lt a)]
  dsimp only
  rw [pack_toNat _ _ _ (by omega) (by omega), hexp, intSign_toNat, ite_mul, one_mul, zero_mul]

/-! ## BF.BF2I -/

theorem netShift_eq (a : Word) : netShift a = (a.toNat / 2 ^ 23 % 2 ^ 8 : Nat) - 134 := by
  rw [netShift, unbias_fieldsOf]
  omega

theorem saturates_netShift_iff (a : Word) : saturates .netShift a = true ↔ 158 ≤ a.toNat / 2 ^ 23 % 2 ^ 8 := by
  rw [saturates, decide_eq_true_eq, netShift_eq]
  omega

section Bf2i
variable {p : Params} {a : Word}

theorem shiftedMag_of_le (h : a.toNat / 2 ^ 23 % 2 ^ 8 ≤ 133) :
    shiftedMag a = (0x80 + a.toNat / 2 ^ 16 % 2 ^ 7) / 2 ^ (134 - a.toNat / 2 ^ 23 % 2 ^ 8) := by
  have hshift : (-netShift a).toNat = 134 - a.toNat / 2 ^ 23 % 2 ^ 8 := by rw [netShift_eq]; omega
  rw [shiftedMag, if_neg (by rw [netShift_eq]; omega), significand_fieldsOf_toNat, Nat.shiftRight_eq_div_pow, hshift]

theorem shiftedMag_of_ge (h : 134 ≤ a.toNat / 2 ^ 23 % 2 ^ 8) :
    shiftedMag a = (0x80 + a.toNat / 2 ^ 16 % 2 ^ 7) * 2 ^ (a.toNat / 2 ^ 23 % 2 ^ 8 - 134) := by
  have hshift : (netShift a).toNat = a.toNat / 2 ^ 23 % 2 ^ 8 - 134 := by rw [netShift_eq]; omega
  rw [shiftedMag, if_pos (by rw [netShift_eq]; omega), significand_fieldsOf_toNat, Nat.shiftLeft_eq, hshift]

/-- Below 1 every bit of the significand is shifted out. -/
theorem shiftedMag_of_lt_one (h : a.toNat / 2 ^ 23 % 2 ^ 8 ≤ 126) : shiftedMag a = 0 := by
  rw [shiftedMag_of_le (by omega)]
  apply Nat.div_eq_of_lt
  calc 0x80 + a.toNat / 2 ^ 16 % 2 ^ 7 < 2 ^ 8 := by omega
    _ ≤ 2 ^ (134 - a.toNat / 2 ^ 23 % 2 ^ 8) := Nat.pow_le_pow_right (by decide) (by omega)

theorem bf16ToInt_of_zero (h : upperHalf a = 0#16) : bf16ToInt p a = 0#32 := if_pos h

theorem bf16ToInt_of_saturates (h : upperHalf a ≠ 0#16) (hsat : saturates p.satTest a = true) :
    bf16ToInt p a = intSat := by
  rw [bf16ToInt, if_neg h, if_pos hsat]

/-- R62 under `toward_zero`: the sign is applied to the shifted significand. -/
theorem bf16ToInt_of_towardZero (h : upperHalf a ≠ 0#16) (hsat : ¬ saturates p.satTest a = true)
    (hneg : p.negRound = .towardZero) : bf16ToInt p a = u32 (signed (fieldsOf a).s (shiftedMag a)) := by
  rw [bf16ToInt, if_neg h, if_neg hsat, hneg, signed]
  obtain hs | hs := BitVec.eq_zero_or_eq_one (fieldsOf a).s
  · simp [hs]
  · simp [hs]

end Bf2i

/-- Settles O21: the shifted significand by the sign of the net shift, and saturation from exponent field 158. -/
theorem bf2iAnswersByExponentRange : Obligations.Bf2iAnswersByExponentRange := by
  unfold Obligations.Bf2iAnswersByExponentRange
  intro s a hneg hsat ha
  refine ⟨_, exec_bf2i ha, bf16ToInt_of_zero, fun hz => ?_⟩
  have hshifted (hexp : a.toNat / 2 ^ 23 % 2 ^ 8 < 158) :
      bf16ToInt s.params a = u32 ((if 2 ^ 31 ≤ a.toNat then -1 else 1) * (shiftedMag a : Int)) := by
    have hnsat : ¬ saturates s.params.satTest a = true := by
      rw [hsat, saturates_netShift_iff]
      omega
    rw [bf16ToInt_of_towardZero hz hnsat hneg, signed_fieldsOf]
  refine ⟨fun hhi => ?_, fun _ hhi => ?_, fun hlo hhi => ?_, fun hlo => ?_⟩
  · rw [hshifted (by omega), shiftedMag_of_lt_one hhi, Nat.cast_zero, mul_zero]
    rfl
  · rw [hshifted (by omega), shiftedMag_of_le hhi]
  · rw [hshifted (by omega), shiftedMag_of_ge hlo]
  · exact bf16ToInt_of_saturates hz (by rwa [hsat, saturates_netShift_iff])

end Sys2Proof.Machine
end

section
/-! bf16_adder_subtractor (41_adder_subtractor.md): the aligned significands in closed form, the range of their signed
sum, what normalizing it ends in, and from these what BF.ADD and BF.SUB answer. -/

namespace Sys2Proof.Machine

/-! ## Operands and their alignment (R68 steps 1 and 2) -/

theorem opnd_e_range (w : Word) : -127 ≤ (opnd w).e ∧ (opnd w).e ≤ 128 := unbias_range _

theorem opnd_m_le (w : Word) : (opnd w).m ≤ 0xFF := by
  obtain h | ⟨_, h⟩ := opnd_m w
  · rw [h]; decide
  · exact h

section Operand
variable {w : Word}

theorem opnd_m_of_zero (h : isZeroBF w = true) : (opnd w).m = 0 := if_pos h

theorem opnd_m_of_not_zero (h : ¬ isZeroBF w = true) : (opnd w).m = (significand (fieldsOf w).f).toNat := if_neg h

/-- A zero has the smallest exponent, so no other operand is shifted to meet it. -/
theorem opnd_e_of_zero (h : isZeroBF w = true) : (opnd w).e = -127 := by
  have hunbias : (opnd w).e = (w.toNat / 2 ^ 23 % 2 ^ 8 : Nat) - 127 := unbias_fieldsOf w
  rw [isZeroBF_iff] at h
  omega

end Operand

/-- Both significands are brought to the larger exponent by truncating division; the one already there is divided by 1. -/
theorem align_eq (x y : Triple) :
    align x y =
      { e := max x.e y.e
        ma := x.m / 2 ^ (max x.e y.e - x.e).toNat
        mb := y.m / 2 ^ (max x.e y.e - y.e).toNat } := by
  obtain h | h | h := lt_trichotomy x.e y.e
  · simp [align, h, h.le, not_lt_of_gt h, Nat.shiftRight_eq_div_pow]
  · simp [align, h]
  · simp [align, h, h.le, Nat.shiftRight_eq_div_pow]

/-! ## The signed sum (R68 step 3) -/

theorem natAbs_signed (s : BitVec 1) (m : Nat) : (signed s m).natAbs = m := by
  unfold signed
  split <;> omega

theorem signed_zero (s : BitVec 1) : signed s 0 = 0 := Int.natAbs_eq_zero.1 (natAbs_signed s 0)

/-- R68 step 4 gives back the sign that step 3 applied. -/
theorem intSign_signed (s : BitVec 1) {m : Nat} (h : 0 < m) : intSign (signed s m) = s := by
  obtain rfl | rfl := BitVec.eq_zero_or_eq_one s
  · simp [intSign, signed]
  · simp [intSign, signed, h]

theorem intSign_getLsbD_zero (v : Int) : (intSign v).getLsbD 0 = decide (v < 0) := by
  by_cases h : v < 0 <;> simp [intSign, h]

section Sum
variable (x y : Triple)

/-- Aligning only lowers a significand, and signs do not count in the magnitude. -/
theorem natAbs_signedSum_le (neg : Bool) : (signedSum x y neg).natAbs ≤ x.m + y.m := by
  have ha : (align x y).ma ≤ x.m := by rw [align_eq]; exact Nat.div_le_self ..
  have hb : (align x y).mb ≤ y.m := by rw [align_eq]; exact Nat.div_le_self ..
  have hsecond : (if neg then -signed y.s (align x y).mb else signed y.s (align x y).mb).natAbs = (align x y).mb := by
    cases neg <;> simp [natAbs_signed]
  calc (signedSum x y neg).natAbs
      ≤ (align x y).ma + (align x y).mb := by
        rw [← hsecond, ← natAbs_signed x.s (align x y).ma]
        exact Int.natAbs_add_le ..
    _ ≤ x.m + y.m := Nat.add_le_add ha hb

theorem signedSum_comm : signedSum y x false = signedSum x y false := by
  simp [signedSum, align_comm x y, Int.add_comm]

theorem signedSum_sub_self : signedSum x x true = 0 := by
  simp [signedSum, align_eq]

variable {x y}

/-- A zero significand at no larger exponent leaves the other operand as it is. -/
theorem signedSum_of_zero_right (he : y.e ≤ x.e) (hm : y.m = 0) : signedSum x y false = signed x.s x.m := by
  simp [signedSum, align_eq, max_eq_left he, hm, signed_zero]

end Sum

/-- R74's range of the sum's magnitude. -/
theorem natAbs_signedSum_opnd_le (a b : Word) (neg : Bool) : (signedSum (opnd a) (opnd b) neg).natAbs ≤ 0x1FE :=
  calc (signedSum (opnd a) (opnd b) neg).natAbs
      ≤ (opnd a).m + (opnd b).m := natAbs_signedSum_le ..
    _ ≤ 0xFF + 0xFF := Nat.add_le_add (opnd_m_le a) (opnd_m_le b)

/-- R74's range of the exponent the sum is formed at. -/
theorem align_opnd_e_range (a b : Word) :
    -127 ≤ (align (opnd a) (opnd b)).e ∧ (align (opnd a) (opnd b)).e ≤ 128 := by
  obtain ⟨halo, hahi⟩ := opnd_e_range a
  obtain ⟨_, hbhi⟩ := opnd_e_range b
  rw [align_eq]
  exact ⟨le_max_of_le_left halo, max_le hahi hbhi⟩

/-! ## Normalizing and packing the sum (R68 steps 4 to 7) -/

/-- After one carry step, which brings the magnitude below 0x100, seven left shifts are enough. -/
theorem cancelStep_spec (x : Scaled) (h0 : 0 < x.mag) (h1 : x.mag < 0x100) :
    0x80 ≤ (cancelStep x).mag ∧ (cancelStep x).mag < 0x100 ∧
      ∃ j : Nat, j ≤ 7 ∧ (cancelStep x).mag = x.mag * 2 ^ j ∧ (cancelStep x).e = x.e - (j : Int) := by
  rw [cancelStep, if_neg h0.ne']
  exact shiftUp_spec x h0 h1

theorem cancelStep_of_zero {x : Scaled} (h : x.mag = 0) : cancelStep x = { mag := 0, e := -127 } := if_pos h

theorem cancelStep_of_normalized {x : Scaled} (h : 0x80 ≤ x.mag) : cancelStep x = x := by
  rw [cancelStep, if_neg (by omega), shiftUp_of_le 7 h]

/-- R74's rows for the end of step 6: canonical zero, or a leading bit in bit 7 at most 7 places further left. -/
theorem cancelStep_range (x : Scaled) (h : x.mag ≤ 0xFF) :
    ((cancelStep x).mag = 0 ∧ (cancelStep x).e = -127) ∨
      (0x80 ≤ (cancelStep x).mag ∧ (cancelStep x).mag ≤ 0xFF ∧ x.e - 7 ≤ (cancelStep x).e ∧
        (cancelStep x).e ≤ x.e) := by
  obtain h0 | h0 := Nat.eq_zero_or_pos x.mag
  · rw [cancelStep_of_zero h0]
    exact .inl ⟨rfl, rfl⟩
  · obtain ⟨hlo, hhi, j, hj, -, he⟩ := cancelStep_spec x h0 (Nat.lt_succ_of_le h)
    omega

/-- R74's rows for the end of step 5: a carry keeps the leading bit and raises the exponent by one. -/
theorem carryStep_range (x : Scaled) (h : x.mag ≤ 0x1FF) :
    (0x100 ≤ x.mag → 0x80 ≤ (carryStep x).mag) ∧ x.e ≤ (carryStep x).e ∧ (carryStep x).e ≤ x.e + 1 := by
  obtain ⟨-, ⟨hcarry, hmag, he⟩ | ⟨hsmall, hsame⟩⟩ := carryStep_spec x h
  · omega
  · rw [hsame]
    omega

section Normalize
variable {t : Int} (e : Int)

@[simp] theorem normalizeSum_zero : normalizeSum 0 e = { mag := 0, e := -127 } := rfl

/-- A magnitude from 0x100 up takes the carry step and no left shift (R72). -/
theorem normalizeSum_of_carry (hlo : 0x100 ≤ t.natAbs) :
    normalizeSum t e = { mag := t.natAbs / 2, e := e + 1 } := by
  have hcarry : carryStep { mag := t.natAbs, e := e } = { mag := t.natAbs / 2, e := e + 1 } := if_pos hlo
  rw [normalizeSum, hcarry]
  exact cancelStep_of_normalized (x := { mag := t.natAbs / 2, e := e + 1 }) (by dsimp only; omega)

/-- A magnitude below 0x100 takes no carry step. -/
theorem normalizeSum_of_no_carry (hhi : t.natAbs < 0x100) :
    normalizeSum t e = cancelStep { mag := t.natAbs, e := e } :=
  congrArg cancelStep (if_neg (not_le.2 hhi))

/-- R68's normalization without its loops: a sum that is not zero ends with its leading bit in bit 7. -/
theorem normalizeSum_spec (h0 : t ≠ 0) (h1 : t.natAbs ≤ 0x1FE) :
    0x80 ≤ (normalizeSum t e).mag ∧ (normalizeSum t e).mag < 0x100 ∧
      ((0x100 ≤ t.natAbs ∧ (normalizeSum t e).mag = t.natAbs / 2 ∧ (normalizeSum t e).e = e + 1) ∨
        (t.natAbs < 0x100 ∧ ∃ j : Nat, j ≤ 7 ∧ (normalizeSum t e).mag = t.natAbs * 2 ^ j ∧
          (normalizeSum t e).e = e - (j : Int))) := by
  by_cases hc : 0x100 ≤ t.natAbs
  · rw [normalizeSum_of_carry e hc]
    dsimp only
    exact ⟨by omega, by omega, .inl ⟨hc, rfl, rfl⟩⟩
  · rw [normalizeSum_of_no_carry e (not_le.1 hc)]
    obtain ⟨hlo, hhi, hshift⟩ :=
      cancelStep_spec { mag := t.natAbs, e := e } (Int.natAbs_pos.2 h0) (not_le.1 hc)
    exact ⟨hlo, hhi, .inr ⟨not_le.1 hc, hshift⟩⟩

/-- R74's range of the exponent at re-encoding: below the operands' range by at most 7, above it by at most 1. -/
theorem normalizeSum_e_range {e : Int} (h : t.natAbs ≤ 0x1FE) (hlo : -127 ≤ e) (hhi : e ≤ 128) :
    -134 ≤ (normalizeSum t e).e ∧ (normalizeSum t e).e ≤ 129 := by
  have h' : t.natAbs ≤ 0x1FF := le_trans h (by decide)
  obtain ⟨hmag, -⟩ := carryStep_spec { mag := t.natAbs, e := e } h'
  obtain ⟨-, hcarry⟩ := carryStep_range { mag := t.natAbs, e := e } h'
  have hcancel := cancelStep_range (carryStep { mag := t.natAbs, e := e }) hmag
  rw [normalizeSum]
  dsimp only at hcarry
  omega

/-- R75: an exact cancellation is canonical zero. -/
theorem packSum_zero (wrap : PackWrap) : packSum wrap 0 e = canonicalZero := by
  rw [packSum, normalizeSum_zero]
  cases wrap <;> decide

/-- A sum that is normalized already is packed as it is. -/
theorem packSum_of_normalized (wrap : PackWrap) (hlo : 0x80 ≤ t.natAbs) (hhi : t.natAbs < 0x100) :
    packSum wrap t e = pack wrap (intSign t) e t.natAbs := by
  have hdone : cancelStep { mag := t.natAbs, e := e } = { mag := t.natAbs, e := e } := cancelStep_of_normalized hlo
  rw [packSum, normalizeSum_of_no_carry e hhi, hdone]

end Normalize

/-- Under `word32` bit 8 of a biased exponent just outside 0..255 sets bit 31, whatever the sign (R52, R76). -/
theorem pack_sign_of_outOfRange (s : BitVec 1) {e : Int} (m : Nat)
    (h : (-256 ≤ e + 127 ∧ e + 127 < 0) ∨ (256 ≤ e + 127 ∧ e + 127 < 512)) :
    (pack .word32 s e m).getLsbD 31 = true := by
  have hbit : (u32 (e + 127)).getLsbD 8 = true := by
    rw [BitVec.getLsbD, BitVec.toNat_ofInt, Nat.testBit_eq_decide_div_mod_eq, decide_eq_true_eq]
    omega
  rw [pack_sign, hbit, decide_eq_true rfl, Bool.and_true, Bool.or_true]

/-! ## The two operations -/

/-- BF.ADD and BF.SUB are one datapath (R70, R71). -/
theorem exec_addsub (neg : Bool) {s : State} {a b : Word} (ha : s.inp.a = some a) (hb : s.inp.b = some b) :
    exec (if neg then .sub else .add) s = .next (s.respond (.word (addsub s.params a b neg))) := by
  cases neg
  · exact exec_add ha hb
  · exact exec_sub ha hb

theorem answerOnY_addsub (neg : Bool) (s : State) (a b : Word) :
    answerOnY (if neg then .sub else .add) s a b = some (addsub s.params a b neg) := by
  cases neg
  · exact answerOnY_add s a b
  · exact answerOnY_sub s a b

section Addsub
variable (p : Params) (a b : Word)

theorem addsub_low (neg : Bool) : (addsub p a b neg).extractLsb' 0 16 = 0#16 := pack_low ..

theorem addsub_comm : addsub p b a false = addsub p a b false := by
  rw [addsub, addsub, signedSum_comm, align_comm]

theorem addsub_sub_self : addsub p a a true = canonicalZero := by
  rw [addsub, signedSum_sub_self, packSum_zero]

/-- Adding a zero of either sign: the other operand's significand is not shifted and is packed again (R77). -/
theorem addsub_zero_right {z : Word} (hz : isZeroBF z = true) :
    addsub p a z false = if isZeroBF a then canonicalZero else clearLow a := by
  have he : (opnd z).e ≤ (opnd a).e := by
    rw [opnd_e_of_zero hz]
    exact (opnd_e_range a).1
  have halign : (align (opnd a) (opnd z)).e = (opnd a).e := by rw [align_eq, max_eq_left he]
  rw [addsub, halign, signedSum_of_zero_right he (opnd_m_of_zero hz)]
  split
  next ha => rw [opnd_m_of_zero ha, signed_zero, packSum_zero]
  next ha =>
    have hm : (opnd a).m = 0x80 + (fieldsOf a).f.toNat := by rw [opnd_m_of_not_zero ha, significand_toNat]
    have hf := (fieldsOf a).f.isLt
    rw [packSum_of_normalized _ _ (by rw [natAbs_signed]; omega) (by rw [natAbs_signed]; omega), natAbs_signed,
      intSign_signed _ (by omega), opnd_m_of_not_zero ha]
    exact pack_fieldsOf p.packWrap a

end Addsub

/-! ## The obligations -/

/-- Settles O27: the sum is formed at the larger exponent, and its normalization is what the loops end in. -/
theorem addAndSubAnswerTheAlignedSum : Obligations.AddAndSubAnswerTheAlignedSum := by
  unfold Obligations.AddAndSubAnswerTheAlignedSum
  intro neg s a b ha hb
  refine ⟨_, exec_addsub neg ha hb, ?_⟩
  intro x z e va vb t
  have he : (align x z).e = e := by rw [align_eq]
  have ht : signedSum x z neg = t := by rw [signedSum, align_eq]
  have htle : t.natAbs ≤ 0x1FE := ht ▸ natAbs_signedSum_opnd_le a b neg
  have hy : addsub s.params a b neg = packSum s.params.packWrap t e := by rw [addsub, ht, he]
  rw [hy]
  refine ⟨fun h0 => ?_, fun h0 => ?_⟩
  · rw [h0, packSum_zero, canonicalZero]
  · obtain ⟨hlo, hhi, hcases⟩ := normalizeSum_spec e h0 htle
    refine ⟨_, _, rfl, hlo, hhi, hcases.imp_right ?_⟩
    rintro ⟨hsmall, j, _, hm, hk⟩
    exact ⟨hsmall, j, hm, hk⟩

/-- Settles O29: the sum does not depend on the operands' order, cancels on equal operands and keeps a nonzero operand
beside a zero. Associativity fails where a small operand is shifted out: with 1 and twice 2^-8, adding the small ones
first gives 1 + 2^-7, and adding them one by one leaves 1. -/
theorem additionLaws : Obligations.AdditionLaws := by
  unfold Obligations.AdditionLaws
  refine ⟨fun s a b => ?_, fun s a => ?_, fun s a z hz => ?_, fun s => ?_⟩
  · refine ⟨_, answerOnY_add s a b, ?_, addsub_low ..⟩
    rw [answerOnY_add, addsub_comm]
  · rw [answerOnY_sub, addsub_sub_self]
  · rw [answerOnY_add, addsub_zero_right _ _ hz, canonicalZero, clearLow]
  · refine ⟨0x3F800000#32, 0x3B800000#32, 0x3B800000#32, 0x3F800000#32, 0x3C000000#32, 0x3F800000#32, 0x3F810000#32, ?_⟩
    simp only [answerOnY_add, addsub]
    cases s.params.packWrap <;> decide

/-- Settles O30: the carry step starts from a magnitude up to 0x1FE at an exponent in -127..128, and the last step from
what the carry step leaves. -/
theorem adderInternalRanges : Obligations.AdderInternalRanges := by
  unfold Obligations.AdderInternalRanges
  intro a b neg x z t c n
  have ht : t.natAbs ≤ 0x1FE := natAbs_signedSum_opnd_le a b neg
  have ht' : t.natAbs ≤ 0x1FF := le_trans ht (by decide)
  obtain ⟨helo, hehi⟩ : -127 ≤ (align x z).e ∧ (align x z).e ≤ 128 := align_opnd_e_range a b
  obtain ⟨hcmag, -⟩ := carryStep_spec { mag := t.natAbs, e := (align x z).e } ht'
  obtain ⟨hcbit, hclo, hchi⟩ : _ ∧ (align x z).e ≤ c.e ∧ c.e ≤ (align x z).e + 1 := carryStep_range _ ht'
  have hn : (n.mag = 0 ∧ n.e = -127) ∨ (0x80 ≤ n.mag ∧ n.mag ≤ 0xFF ∧ c.e - 7 ≤ n.e ∧ n.e ≤ c.e) :=
    cancelStep_range c hcmag
  exact ⟨opnd_e_range a, opnd_m a, opnd_e_range b, opnd_m b, by omega, ht, hcmag, hcbit, by omega,
    normalizeSum_e_range ht helo hehi, by omega⟩

/-- Settles O31: an exponent in 0..255 is packed plainly; R74's range leaves -7..-1 and 256 outside, where bit 8 is
set. -/
theorem addAndSubWrapOutOfRangeExponents : Obligations.AddAndSubWrapOutOfRangeExponents := by
  unfold Obligations.AddAndSubWrapOutOfRangeExponents
  constructor
  · intro neg s a b hwrap
    refine ⟨_, answerOnY_addsub neg s a b, ?_⟩
    intro t n
    obtain ⟨helo, hehi⟩ := align_opnd_e_range a b
    obtain ⟨hnlo, hnhi⟩ : -134 ≤ n.e ∧ n.e ≤ 129 :=
      normalizeSum_e_range (natAbs_signedSum_opnd_le a b neg) helo hehi
    have hy : addsub s.params a b neg = pack .word32 (intSign t) n.e n.mag := by rw [addsub, hwrap, packSum]
    rw [hy]
    refine ⟨fun hlo hhi => ⟨?_, ?_⟩, fun hout => pack_sign_of_outOfRange _ _ (by omega), by omega⟩
    · rw [pack_exponent_of_inRange _ _ _ hlo hhi, Int.toNat_of_nonneg hlo]
    · rw [pack_sign_of_inRange _ _ _ hlo hhi, intSign_getLsbD_zero]
  · intro s hwrap
    simp only [answerOnY_add, answerOnY_sub, addsub, hwrap]
    decide

end Sys2Proof.Machine
end

section
/-! bf16_multiplier (42_multiplier.md): the range of the product of two significands, what normalizing it ends in by its
size, and from these what BF.MUL answers. -/

namespace Sys2Proof.Machine

/-! ## The product and its normalization (R78, R80) -/

/-- R80's range of the product: significands that are not 0 have their implicit bit. -/
theorem opnd_mul_range (a b : Word) :
    (opnd a).m * (opnd b).m = 0 ∨
      (0x4000 ≤ (opnd a).m * (opnd b).m ∧ (opnd a).m * (opnd b).m ≤ 0xFE01) := by
  obtain ha | ⟨halo, hahi⟩ := opnd_m a
  · exact .inl (mul_eq_zero_of_left ha _)
  obtain hb | ⟨hblo, hbhi⟩ := opnd_m b
  · exact .inl (mul_eq_zero_of_right _ hb)
  · exact .inr ⟨Nat.mul_le_mul halo hblo, Nat.mul_le_mul hahi hbhi⟩

section Product
variable {x y : Triple}

theorem rawProduct_eq (x y : Triple) : rawProduct x y = { mag := x.m * y.m / 0x80, e := x.e + y.e } := by
  rw [rawProduct, Nat.shiftRight_eq_div_pow]

theorem normalizeProduct_comm (x y : Triple) : normalizeProduct y x = normalizeProduct x y := by
  rw [normalizeProduct, normalizeProduct, rawProduct, rawProduct, Nat.mul_comm, Int.add_comm]

theorem zeroExponent_of_ne_zero {z : Scaled} (h : z.mag ≠ 0) : zeroExponent z = z := if_neg h

/-- A zero product ends at the canonical minimum exponent, whatever the operands' exponents. -/
theorem normalizeProduct_of_zero (h : x.m * y.m = 0) : normalizeProduct x y = { mag := 0, e := -127 } := by
  rw [normalizeProduct, rawProduct_eq, h]
  rfl

/-- A product below 0x8000 takes no carry step. -/
theorem normalizeProduct_of_no_carry (hlo : 0x80 ≤ x.m * y.m) (hhi : x.m * y.m < 0x8000) :
    normalizeProduct x y = { mag := x.m * y.m / 0x80, e := x.e + y.e } := by
  have hsame : carryStep (rawProduct x y) = rawProduct x y := if_neg (by rw [rawProduct_eq]; dsimp only; omega)
  rw [normalizeProduct, hsame, rawProduct_eq]
  exact zeroExponent_of_ne_zero (by dsimp only; omega)

/-- A product from 0x8000 up takes the carry step: eight bits are dropped in all. -/
theorem normalizeProduct_of_carry (h : 0x8000 ≤ x.m * y.m) :
    normalizeProduct x y = { mag := x.m * y.m / 0x100, e := x.e + y.e + 1 } := by
  have hcarry : carryStep (rawProduct x y) = { mag := x.m * y.m / 0x80 / 2, e := x.e + y.e + 1 } := by
    rw [rawProduct_eq]
    exact if_pos (by dsimp only; omega)
  rw [normalizeProduct, hcarry, Nat.div_div_eq_div_mul]
  exact zeroExponent_of_ne_zero (by dsimp only; omega)

end Product

/-- R82's range of the exponent at re-encoding: the sum of two unbiased exponents, at most one higher by the carry. -/
theorem normalizeProduct_opnd_e_range (a b : Word) :
    -254 ≤ (normalizeProduct (opnd a) (opnd b)).e ∧ (normalizeProduct (opnd a) (opnd b)).e ≤ 257 := by
  obtain ⟨halo, hahi⟩ := opnd_e_range a
  obtain ⟨hblo, hbhi⟩ := opnd_e_range b
  obtain h0 | ⟨hlo, -⟩ := opnd_mul_range a b
  · rw [normalizeProduct_of_zero h0]
    decide
  obtain hsmall | hcarry := Nat.lt_or_ge ((opnd a).m * (opnd b).m) 0x8000
  · rw [normalizeProduct_of_no_carry (by omega) hsmall]
    dsimp only
    omega
  · rw [normalizeProduct_of_carry hcarry]
    dsimp only
    omega

/-! ## Operands (R53, R54) -/

theorem opnd_s_getLsbD_zero (w : Word) : (opnd w).s.getLsbD 0 = w.getLsbD 31 := by
  simp [opnd, fieldsOf]

/-- Packing an operand again gives its word without the low half. A zero's significand is 0 and not 0x80, but only the
implicit bit differs, which `pack` drops. -/
theorem pack_opnd (wrap : PackWrap) (w : Word) :
    pack wrap (opnd w).s (opnd w).e (opnd w).m = clearLow w := by
  by_cases hz : isZeroBF w = true
  · have hs : (opnd w).s.toNat = w.toNat / 2 ^ 31 := fieldsOf_s_toNat w
    apply BitVec.eq_of_toNat_eq
    rw [opnd_e_of_zero hz, opnd_m_of_zero hz, pack_toNat wrap _ _ (by decide) (by decide), hs, clearLow_toNat]
    rw [isZeroBF_iff] at hz
    simp only [Int.add_left_neg, Int.toNat_zero, Nat.zero_mod, Nat.zero_mul]
    omega
  · rw [opnd_m_of_not_zero hz]
    exact pack_fieldsOf wrap w

/-- The bf16 number 1.0. -/
theorem opnd_one : opnd 0x3F800000#32 = { s := 0#1, e := 0, m := 0x80 } := by decide

/-- R84: multiplying by 1.0 is exact, as the factor 0x80 is what the shift by 7 divides by. -/
theorem normalizeProduct_opnd_one (a : Word) :
    normalizeProduct (opnd a) (opnd 0x3F800000#32) = { mag := (opnd a).m, e := (opnd a).e } := by
  rw [opnd_one]
  by_cases hz : isZeroBF a = true
  · rw [opnd_e_of_zero hz, opnd_m_of_zero hz]
    exact normalizeProduct_of_zero (by rw [opnd_m_of_zero hz, Nat.zero_mul])
  · have hm : (opnd a).m = 0x80 + (fieldsOf a).f.toNat := by rw [opnd_m_of_not_zero hz, significand_toNat]
    have hle := opnd_m_le a
    rw [normalizeProduct_of_no_carry (by dsimp only; omega) (by dsimp only; omega), Int.add_zero,
      Nat.mul_div_cancel _ (by decide)]

/-! ## The operation -/

section Mulbf
variable (p : Params) (a b : Word)

theorem mulbf_comm : mulbf p b a = mulbf p a b := by
  rw [mulbf, mulbf, normalizeProduct_comm, BitVec.xor_comm]

theorem mulbf_one_right : mulbf p a 0x3F800000#32 = clearLow a := by
  have hs : (opnd a).s ^^^ (opnd 0x3F800000#32).s = (opnd a).s := by rw [opnd_one, BitVec.xor_zero]
  rw [mulbf, hs, normalizeProduct_opnd_one, pack_opnd]

/-- R84's sign consistency: an exponent in range leaves bit 31 to the sign. -/
theorem mulbf_sign_of_inRange (hlo : 0 ≤ (normalizeProduct (opnd a) (opnd b)).e + 127)
    (hhi : (normalizeProduct (opnd a) (opnd b)).e + 127 ≤ 255) :
    (mulbf p a b).getLsbD 31 = (a.getLsbD 31 ^^ b.getLsbD 31) := by
  rw [mulbf, pack_sign_of_inRange _ _ _ hlo hhi, BitVec.getLsbD_xor, opnd_s_getLsbD_zero, opnd_s_getLsbD_zero]

end Mulbf

/-! ## The obligations -/

/-- Settles O33: the answer packs the normalized product, whose three forms are by the product's size; a product that is
not 0 is at least 0x4000, so the shift never brings it to 0. -/
theorem mulAnswersTheTruncatedProduct : Obligations.MulAnswersTheTruncatedProduct := by
  unfold Obligations.MulAnswersTheTruncatedProduct
  intro s a b ha hb
  refine ⟨_, exec_mul ha hb, ?_⟩
  intro x z p sg
  have hrange : p = 0 ∨ (0x4000 ≤ p ∧ p ≤ 0xFE01) := opnd_mul_range a b
  have hy : mulbf s.params a b = pack s.params.packWrap sg (normalizeProduct x z).e (normalizeProduct x z).mag := rfl
  rw [hy]
  refine ⟨fun h0 => ?_, fun hpos hsmall => ?_, fun hcarry => ?_⟩
  · rw [normalizeProduct_of_zero h0]
  · have hlo : 0x80 ≤ p := by omega
    rw [normalizeProduct_of_no_carry hlo hsmall]
  · rw [normalizeProduct_of_carry hcarry]

/-- Settles O34: the normalized product and the sign do not depend on the operands' order; R82's range leaves exponents
where bit 8 of the biased exponent is set whenever it is outside 0..255; and 1.0 leaves the operand as it is. -/
theorem multiplicationLaws : Obligations.MultiplicationLaws := by
  unfold Obligations.MultiplicationLaws
  refine ⟨fun s a b => ?_, fun s a => ?_⟩
  · refine ⟨_, answerOnY_mul s a b, by rw [answerOnY_mul, mulbf_comm], ?_⟩
    intro n
    obtain ⟨hnlo, hnhi⟩ : -254 ≤ n.e ∧ n.e ≤ 257 := normalizeProduct_opnd_e_range a b
    refine ⟨fun _ hlo hhi => mulbf_sign_of_inRange _ _ _ hlo hhi, fun hwrap hout => ?_⟩
    rw [mulbf, hwrap]
    exact pack_sign_of_outOfRange (e := n.e) _ _ (by omega)
  · rw [answerOnY_mul, mulbf_one_right, clearLow]

end Sys2Proof.Machine
end

section
/-! bf16_ln_approximator (43_ln_approximator.md): the exponent and the mantissa BF.LN starts from as arithmetic on the
operand, R90's nine steps as requests, and the value BF.I2BF answers to a small integer. -/

namespace Sys2Proof.Machine

/-! ## BF.LN by its operand (R85, R91) -/

theorem clearLow_eq_zero_iff (w : Word) : clearLow w = 0#32 ↔ upperHalf w = 0#16 := by
  rw [← BitVec.toNat_inj, ← BitVec.toNat_inj, clearLow_toNat, upperHalf_toNat, BitVec.toNat_ofNat, BitVec.toNat_ofNat]
  omega

theorem lnWord_of_zero {p : Params} {a : Word} (h : upperHalf a = 0#16) : lnWord p a = lnZeroWord p.lnZero :=
  if_pos ((clearLow_eq_zero_iff a).2 h)

/-- Settles O38: a zero upper half is what BF.LN's zero test sees, and the word it then gives is the parameter's. -/
theorem lnOfZeroAnswersItsFixedWord : Obligations.LnOfZeroAnswersItsFixedWord := by
  unfold Obligations.LnOfZeroAnswersItsFixedWord
  intro s a ha hzero
  rw [exec_ln ha, lnWord_of_zero hzero]
  constructor
  · intro hclear
    rw [hclear, lnZeroWord]
  · intro hset
    rw [hset, lnZeroWord]

theorem lnNormal_iff (a : Word) :
    lnNormal a = true ↔
      a.toNat / 2 ^ 31 = 0 ∧ 1 ≤ a.toNat / 2 ^ 23 % 2 ^ 8 ∧ a.toNat / 2 ^ 23 % 2 ^ 8 ≤ 254 := by
  simp only [lnNormal, Bool.and_eq_true, decide_eq_true_eq, ne_eq, ← BitVec.toNat_inj, fieldsOf_s_toNat,
    fieldsOf_e_toNat, BitVec.toNat_ofNat]
  omega

/-- A positive normal operand has an exponent field, so it is no zero and the cubic is evaluated. -/
theorem lnWord_of_normal {p : Params} {a : Word} (h : lnNormal a = true) : lnWord p a = lnPolynomial p a := by
  have hnonzero : ¬ clearLow a = 0#32 := by
    obtain ⟨_, hexp, _⟩ := (lnNormal_iff a).1 h
    rw [clearLow_eq_zero_iff, ← BitVec.toNat_inj, upperHalf_toNat, BitVec.toNat_ofNat]
    omega
  rw [lnWord, if_neg hnonzero, if_pos h]

/-! ## The exponent and the mantissa (R87, R88) -/

/-- Every field stands in the upper half. -/
theorem fieldsOf_clearLow (a : Word) : fieldsOf (clearLow a) = fieldsOf a := by
  simp only [fieldsOf, clearLow, BitVec.extractLsb'_and, Fields.mk.injEq]
  exact ⟨BitVec.and_allOnes, BitVec.and_allOnes, BitVec.and_allOnes⟩

theorem lnExponent_eq (a : Word) : lnExponent a = (a.toNat / 2 ^ 23 % 2 ^ 8 : Nat) - 127 := by
  have hfield : lnExponent a = unbias (fieldsOf (clearLow a)).e := rfl
  rw [hfield, fieldsOf_clearLow, unbias_fieldsOf]

/-- The mask keeps sign and fraction and clears the exponent field, and 1.0 has exponent field 127 and no other bit. -/
theorem fieldsOf_lnMantissa (a : Word) :
    fieldsOf (lnMantissa a) = { s := (fieldsOf a).s, e := 127#8, f := (fieldsOf a).f } := by
  have hs : (fieldsOf (clearLow a)).s &&& 1#1 = (fieldsOf (clearLow a)).s := BitVec.and_allOnes
  have hf : (fieldsOf (clearLow a)).f &&& 127#7 = (fieldsOf (clearLow a)).f := BitVec.and_allOnes
  rw [← fieldsOf_clearLow a, ← hs, ← hf]
  simp [fieldsOf, lnMantissa, BitVec.extractLsb'_and, BitVec.extractLsb'_or]

theorem lnMantissa_low (a : Word) : (lnMantissa a).extractLsb' 0 16 = 0#16 := by
  simp [lnMantissa, clearLow, BitVec.extractLsb'_and, BitVec.extractLsb'_or]

/-- A positive operand is scaled to `1 + f/128`. -/
theorem lnMantissa_eq {a : Word} (h : lnNormal a = true) :
    lnMantissa a = BitVec.ofNat 32 (0x3F800000 + a.toNat / 2 ^ 16 % 2 ^ 7 * 2 ^ 16) := by
  obtain ⟨hsign, -⟩ := (lnNormal_iff a).1 h
  apply BitVec.eq_of_toNat_eq
  rw [word_toNat_eq_fields, fieldsOf_lnMantissa, lnMantissa_low, fieldsOf_s_toNat, fieldsOf_f_toNat, hsign]
  simp only [BitVec.toNat_ofNat]
  omega

/-! ## Runs of requests that are answered on `Y` -/

/-- A request whose code selects an operation runs it. -/
theorem serve_of_op {s : State} {code : BitVec 4} {i : Instr} (hop : s.op = some code) (hc : decode code = .op i) :
    serve s = exec i s := by
  simp [serve, hop, hc]

/-- At these parameters the unit takes the event in one step and gives `w` on `Y` as its one response (R33). -/
def AnswersWith (p : Params) (ev : HostEvent) (w : Word) : Prop :=
  ∀ (s : State) (rest : List HostEvent), s.params = p → s.events = ev :: rest →
    ∃ t, step s = .next t ∧ t.params = p ∧ t.events = rest ∧ t.out = .word w ∧ t.responses = s.responses ++ [.word w]

/-- A request is answered by what its operation answers with the request's ports driven. -/
theorem answersWith_of_exec {p : Params} {i : Instr} {ports : InPorts} {w : Word}
    (h : ∀ s : State, s.inp = ports → s.params = p → exec i s = .next (s.respond (.word w))) :
    AnswersWith p (.request { op := encode i, ports := ports }) w := by
  intro s rest hp hev
  refine ⟨(s.present { op := encode i, ports := ports } rest).respond (.word w), ?_, hp, rfl, rfl, rfl⟩
  rw [step_of_request hev, serve_of_op (State.present_op ..) (decode_encode i)]
  exact h _ rfl hp

section Requests
variable (p : Params) (a b : Word)

theorem answersWith_add : AnswersWith p (requestAB .add a b) (addsub p a b false) :=
  answersWith_of_exec fun s hin hp => by rw [exec_add (s := s) (by rw [hin]) (by rw [hin]), hp]

theorem answersWith_mul : AnswersWith p (requestAB .mul a b) (mulbf p a b) :=
  answersWith_of_exec fun s hin hp => by rw [exec_mul (s := s) (by rw [hin]) (by rw [hin]), hp]

theorem answersWith_i2bf : AnswersWith p (requestA .i2bf a) (intToBf16 p a) :=
  answersWith_of_exec fun s hin hp => by rw [exec_i2bf (s := s) (by rw [hin]), hp]

theorem answersWith_ln : AnswersWith p (requestA .ln a) (lnWord p a) :=
  answersWith_of_exec fun s hin hp => by rw [exec_ln (s := s) (by rw [hin]), hp]

end Requests

theorem run_succ_of_step {M : Host.Core} {s t : M.State} (k : Nat) (h : M.step s = .next t) :
    M.run (k + 1) s = M.run k t := by
  simp [Host.Core.run, h]

/-- A run over events that are each answered gives their responses in order. -/
theorem run_of_answersWith {p : Params} {evs : List HostEvent} {ws : List Word}
    (h : List.Forall₂ (AnswersWith p) evs ws) :
    ∀ s : State, s.params = p → s.events = evs →
      ∃ t : State, Host.Core.run core evs.length s = .next t ∧ t.responses = s.responses ++ ws.map OutPorts.word := by
  induction h with
  | nil => exact fun s _ _ => ⟨s, rfl, (List.append_nil _).symm⟩
  | @cons ev w evs ws hhead _ ih =>
    intro s hp hev
    obtain ⟨u, hstep, hup, huev, _, hures⟩ := hhead s evs hp hev
    obtain ⟨t, hrun, htres⟩ := ih u hup huev
    refine ⟨t, (run_succ_of_step (M := core) evs.length hstep).trans hrun, ?_⟩
    rw [htres, hures, List.append_assoc]
    rfl

/-! ## R90's nine steps -/

/-- The results of R90's nine steps from a mantissa and an integer exponent. -/
def lnTrace (p : Params) (m e : Word) : LnTrace :=
  let p1 := mulbf p p.consts.c3 m
  let t1 := addsub p p.consts.c2 p1 false
  let p2 := mulbf p t1 m
  let t2 := addsub p p.consts.c1 p2 false
  let p3 := mulbf p t2 m
  let t3 := addsub p p.consts.c0 p3 false
  let eb := intToBf16 p e
  let p4 := mulbf p p.consts.ln2 eb
  { p1, t1, p2, t2, p3, t3, eb, p4, y := addsub p t3 p4 false }

/-- Each of the nine requests is answered by the trace's word, which the later requests present again. -/
theorem lnProgram_answersWith_lnTrace (p : Params) (m e : Word) :
    List.Forall₂ (AnswersWith p) (lnProgram p.consts m e (lnTrace p m e)) (lnTrace p m e).words :=
  .cons (answersWith_mul p _ _) <| .cons (answersWith_add p _ _) <| .cons (answersWith_mul p _ _) <|
  .cons (answersWith_add p _ _) <| .cons (answersWith_mul p _ _) <| .cons (answersWith_add p _ _) <|
  .cons (answersWith_i2bf p _) <| .cons (answersWith_mul p _ _) <| .cons (answersWith_add p _ _) .nil

/-- The last of the nine results is BF.LN's polynomial. -/
theorem lnTrace_y (p : Params) (a : Word) :
    (lnTrace p (lnMantissa a) (u32 (lnExponent a))).y = lnPolynomial p a := rfl

/-- Settles O36: the trace is R90's, each of the nine requests is answered by its word, and BF.LN answers the last one,
as the mantissa and exponent it starts from are those the operand's fields give. -/
theorem lnAnswersTheNineRequestProgram : Obligations.LnAnswersTheNineRequestProgram := by
  unfold Obligations.LnAnswersTheNineRequestProgram
  intro s a hnormal
  rw [← lnMantissa_eq hnormal, ← lnExponent_eq]
  obtain ⟨t, hrun, hres⟩ :=
    run_of_answersWith (lnProgram_answersWith_lnTrace s.params (lnMantissa a) (u32 (lnExponent a)))
      { s with events := lnProgram .. } rfl rfl
  obtain ⟨u, hstep, _, _, hout, _⟩ := answersWith_ln s.params a { s with events := [requestA .ln a] } [] rfl rfl
  refine ⟨lnTrace s.params (lnMantissa a) (u32 (lnExponent a)), t, u, hrun, hres, hstep, ?_⟩
  rw [hout, lnWord_of_normal hnormal, lnTrace_y]

/-! ## The value of a packed word (R41, R52) -/

section PackValue
variable (wrap : PackWrap) (s : BitVec 1) {e : Int} {m : Nat}

theorem fieldsOf_pack_s (hlo : 0 ≤ e + 127) (hhi : e + 127 ≤ 255) : (fieldsOf (pack wrap s e m)).s = s := by
  have := s.isLt
  apply BitVec.eq_of_toNat_eq
  rw [fieldsOf_s_toNat, pack_toNat wrap s m hlo hhi]
  omega

/-- A normalized magnitude at an exponent above the field 0 stands for `m/128 · 2^e`. -/
theorem bf16Mag_pack (hlo : 0 < e + 127) (hhi : e + 127 ≤ 255) (hm : 0x80 ≤ m) (hm' : m < 0x100) :
    bf16Mag (pack wrap s e m) = (m : ℚ) / 128 * 2 ^ e := by
  have hnat := pack_toNat wrap s m hlo.le hhi
  have hnonzero : ¬ isZeroBF (pack wrap s e m) = true := by
    rw [isZeroBF_iff, hnat]
    omega
  have hexp : (((fieldsOf (pack wrap s e m)).e.toNat : ℤ) - 127) = e := by
    rw [fieldsOf_e_toNat, hnat]
    omega
  have hfrac : (fieldsOf (pack wrap s e m)).f.toNat = m - 128 := by
    rw [fieldsOf_f_toNat, hnat]
    omega
  rw [bf16Mag, if_neg hnonzero, hexp, hfrac, Nat.cast_sub hm]
  push_cast
  ring

theorem bf16Value_pack (hlo : 0 < e + 127) (hhi : e + 127 ≤ 255) (hm : 0x80 ≤ m) (hm' : m < 0x100) :
    bf16Value (pack wrap s e m) = if s = 1#1 then -((m : ℚ) / 128 * 2 ^ e) else (m : ℚ) / 128 * 2 ^ e := by
  rw [bf16Value, fieldsOf_pack_s wrap s hlo.le hhi, bf16Mag_pack wrap s hlo hhi hm hm']

end PackValue

/-- The number canonical zero stands for. -/
theorem bf16Value_canonicalZero : bf16Value canonicalZero = 0 := by
  have hzero : isZeroBF canonicalZero = true := by decide
  have hsign : (fieldsOf canonicalZero).s ≠ 1#1 := by decide
  rw [bf16Value, if_neg hsign, bf16Mag, if_pos hzero]

/-! ## BF.I2BF of a small integer (R60, R89) -/

theorem normalizeInt_range_of_lt {n : Nat} (h0 : 0 < n) (h : n < 0x100) :
    (0x80 ≤ (normalizeInt n).mag ∧ (normalizeInt n).mag < 0x100) ∧
      (0 ≤ (normalizeInt n).e ∧ (normalizeInt n).e ≤ 7) := by
  obtain ⟨hlo, hhi, j, hj, -, he⟩ := shiftUp_spec { mag := n, e := 7 } h0 h
  rw [normalizeInt, shiftDown_of_lt 24 hhi, he]
  dsimp only
  exact ⟨⟨hlo, hhi⟩, by omega⟩

/-- A magnitude below 0x100 is only shifted left, which its exponent makes good: no bit of it is lost. -/
theorem normalizeInt_value_of_lt {n : Nat} (h0 : 0 < n) (h : n < 0x100) :
    ((normalizeInt n).mag : ℚ) / 128 * 2 ^ (normalizeInt n).e = n := by
  obtain ⟨hlog, hnorm⟩ := normalizeInt_of_lt h0 h
  have hpow : (2 : ℚ) ^ (7 - Nat.log2 n) * 2 ^ Nat.log2 n = 128 := by
    rw [← pow_add, Nat.sub_add_cancel hlog]
    norm_num
  rw [hnorm]
  dsimp only
  rw [zpow_natCast]
  push_cast
  linear_combination (n : ℚ) / 128 * hpow

/-- An integer of magnitude below 0x100 is converted exactly. -/
theorem bf16Value_intToBf16 (p : Params) {a : Word} (h : (s32 a).natAbs < 0x100) :
    bf16Value (intToBf16 p a) = s32 a := by
  by_cases hz : s32 a = 0
  · rw [intToBf16, if_pos hz, hz, bf16Value_canonicalZero, Int.cast_zero]
  · have hpos := Int.natAbs_pos.2 hz
    obtain ⟨⟨hlo, hhi⟩, helo, hehi⟩ := normalizeInt_range_of_lt hpos h
    rw [intToBf16, if_neg hz, bf16Value_pack _ _ (by omega) (by omega) hlo hhi, normalizeInt_value_of_lt hpos h,
      Nat.cast_natAbs, Int.cast_abs]
    obtain hneg | hnonneg := lt_or_ge (s32 a) 0
    · rw [intSign, if_pos hneg, if_pos rfl, abs_of_neg (Int.cast_lt_zero.2 hneg), neg_neg]
    · rw [intSign, if_neg hnonneg.not_gt, if_neg (by decide), abs_of_nonneg (Int.cast_nonneg hnonneg)]

/-- PACK_WRAP makes no difference to BF.I2BF: an exponent up to 31 is packed without wrap. -/
theorem intToBf16_eq_default (p : Params) (a : Word) : intToBf16 p a = intToBf16 defaultParams a := by
  by_cases hz : s32 a = 0
  · rw [intToBf16, intToBf16, if_pos hz, if_pos hz]
  · have hpos : 0 < (s32 a).natAbs := Int.natAbs_pos.2 hz
    have hlog : Nat.log2 (s32 a).natAbs < 32 := (Nat.log2_lt hpos.ne').2 (natAbs_s32_lt a)
    apply BitVec.eq_of_toNat_eq
    rw [intToBf16, intToBf16, if_neg hz, if_neg hz, normalizeInt_eq hpos (natAbs_s32_lt a)]
    dsimp only
    rw [pack_toNat _ _ _ (by omega) (by omega), pack_toNat _ _ _ (by omega) (by omega)]

/-- Settles O40: an exponent's magnitude is below 0x100, so it converts exactly; the examples are computed. -/
theorem lnExponentConvertsExactly : Obligations.LnExponentConvertsExactly := by
  unfold Obligations.LnExponentConvertsExactly
  refine ⟨fun s e b hlo hhi => ?_, fun s b => ?_⟩
  · have hs32 : s32 (u32 e) = e := s32_u32 (by omega) (by omega)
    refine ⟨_, answerOnY_i2bf s (u32 e) b, ?_⟩
    rw [bf16Value_intToBf16 s.params (by omega), hs32]
  · simp only [answerOnY_i2bf, intToBf16_eq_default s.params]
    decide

end Sys2Proof.Machine
end

section
/-! Requests that keep the host's duties (R113): each is answered, and reset may take the answer away (R109). -/

namespace Sys2Proof

/-- A well-formed request has an operation, and drives every port that operation reads. -/
theorem Request.wf_iff {r : Request} : r.wf = true ↔ ∃ i, decode r.op = .op i ∧ r.ports.drives i = true := by
  rw [Request.wf]
  cases decode r.op <;> simp

end Sys2Proof

namespace Sys2Proof.Machine

/-- With its ports driven every operation goes on with one response (R113): each of the three shapes finds a value on
every port it reads. -/
theorem exec_of_drives {i : Instr} {s : State} (h : s.inp.drives i = true) :
    ∃ o, exec i s = .next (s.respond o) := by
  have hport : ∀ p ∈ i.reads, s.inp.driven p = true := List.all_eq_true.1 h
  cases i with
  | decode | f2bf | bf2f | i2bf | bf2i | ln =>
    obtain ⟨a, ha⟩ := Option.isSome_iff_exists.1 (hport .a (by decide))
    exact ⟨_, answerFromA_next.2 ⟨a, ha, rfl⟩⟩
  | add | sub | mul =>
    obtain ⟨a, ha⟩ := Option.isSome_iff_exists.1 (hport .a (by decide))
    obtain ⟨b, hb⟩ := Option.isSome_iff_exists.1 (hport .b (by decide))
    exact ⟨_, answerFromAB_next.2 ⟨a, ha, b, hb, rfl⟩⟩
  | encode =>
    obtain ⟨sg, hs⟩ := Option.isSome_iff_exists.1 (hport .sIn (by decide))
    obtain ⟨e, he⟩ := Option.isSome_iff_exists.1 (hport .eIn (by decide))
    obtain ⟨m, hm⟩ := Option.isSome_iff_exists.1 (hport .mIn (by decide))
    exact ⟨_, answerFromTriple_next.2 ⟨sg, hs, e, he, m, hm, rfl⟩⟩

section WellFormedRequest
variable {s : State} {r : Request} {rest : List HostEvent}

theorem serve_present_of_wf (s : State) (rest : List HostEvent) (hwf : r.wf = true) :
    ∃ o, serve (s.present r rest) = .next ((s.present r rest).respond o) := by
  obtain ⟨i, hi, hdriven⟩ := Request.wf_iff.1 hwf
  rw [serve_of_op (s.present_op r rest) hi]
  exact exec_of_drives hdriven

theorem step_of_wf_request (hwf : r.wf = true) (h : s.events = .request r :: rest) :
    ∃ o, step s = .next ((s.present r rest).respond o) := by
  rw [step_of_request h]
  exact serve_present_of_wf s rest hwf

/-- A well-formed request abandoned by reset leaves what a reset alone would leave (R109). -/
theorem step_of_wf_requestThenReset (hwf : r.wf = true) (h : s.events = .requestThenReset r :: rest) :
    step s = .next (s.resetUnit rest) := by
  obtain ⟨o, ho⟩ := serve_present_of_wf s rest hwf
  simp [step, takeEvent, h, abandon_next, ho]

end WellFormedRequest

/-- Settles O45: the abandoned request only resets the unit, which keeps the responses; presented again it finds its
ports driven and is answered. -/
theorem abandonedRequestHasNoResponse : Obligations.AbandonedRequestHasNoResponse := by
  unfold Obligations.AbandonedRequestHasNoResponse
  intro s r rest hwf hev
  have hreset := step_of_wf_requestThenReset hwf hev
  obtain ⟨o, hanswer⟩ := step_of_wf_request (s := s.resetUnit (.request r :: rest)) hwf (s.resetUnit_events _)
  exact ⟨_, _, o, hreset, s.resetUnit_responses _, hanswer, rfl, rfl⟩

end Sys2Proof.Machine
end

section
/-! The textual request line (30_encoding.md R48): no piece of a line holds a separator, so cutting at the separators gives
the pieces back, and each piece is read as what was written; and the ports a line's operands are driven to. -/

namespace Sys2Proof.Machine

/-! ## Pieces and separators -/

/-- A character of a name or an operand: a letter, a digit or the minus sign, and so no separator of a line. -/
def pieceChar (c : Char) : Bool := isLetter c || isDigit c || decide (c = '-')

/-- A name or an operand as it is written. -/
def IsPiece (cs : List Char) : Prop := ∀ c ∈ cs, pieceChar c = true

theorem IsPiece.not_mem {cs : List Char} (h : IsPiece cs) {sep : Char} (hsep : pieceChar sep = false) : sep ∉ cs :=
  fun hmem => by simp [h sep hmem] at hsep

theorem IsPiece.append {cs ds : List Char} (hc : IsPiece cs) (hd : IsPiece ds) : IsPiece (cs ++ ds) :=
  fun c hmem => (List.mem_append.1 hmem).elim (hc c) (hd c)

theorem noSpaces_of_isPiece {cs : List Char} (h : IsPiece cs) : noSpaces cs = cs := by
  rw [noSpaces, List.filter_eq_self]
  intro c hmem
  exact decide_eq_true fun hspace => h.not_mem (sep := ' ') (by decide) (hspace ▸ hmem)

theorem noSpaces_append (cs ds : List Char) : noSpaces (cs ++ ds) = noSpaces cs ++ noSpaces ds := List.filter_append ..

/-- Dropping spaces leaves pieces that are joined by the comma alone. -/
theorem noSpaces_joinWith {ps : List (List Char)} (h : ∀ p ∈ ps, IsPiece p) :
    noSpaces (joinWith [',', ' '] ps) = joinWith [','] ps := by
  induction ps with
  | nil => rfl
  | cons p ps ih =>
    obtain ⟨hp, hps⟩ := List.forall_mem_cons.1 h
    cases ps with
    | nil => exact noSpaces_of_isPiece hp
    | cons q rest =>
      have hsep : noSpaces [',', ' '] = [','] := by decide
      simp only [joinWith, noSpaces_append, noSpaces_of_isPiece hp, hsep, ih hps]

section Cut
variable {sep : Char}

theorem cutAtChar_append {cs : List Char} (h : sep ∉ cs) (rest : List Char) :
    cutAtChar sep (cs ++ sep :: rest) = some (cs, rest) := by
  induction cs with
  | nil => simp [cutAtChar]
  | cons c cs ih =>
    obtain ⟨hc, hcs⟩ := not_or.1 (mt List.mem_cons.2 h)
    simp [cutAtChar, Ne.symm hc, ih hcs]

theorem splitAtChar_of_not_mem {cs : List Char} (h : sep ∉ cs) : splitAtChar sep cs = [cs] := by
  induction cs with
  | nil => rfl
  | cons c cs ih =>
    obtain ⟨hc, hcs⟩ := not_or.1 (mt List.mem_cons.2 h)
    simp [splitAtChar, Ne.symm hc, ih hcs]

theorem splitAtChar_append {cs : List Char} (h : sep ∉ cs) (rest : List Char) :
    splitAtChar sep (cs ++ sep :: rest) = cs :: splitAtChar sep rest := by
  induction cs with
  | nil => simp [splitAtChar]
  | cons c cs ih =>
    obtain ⟨hc, hcs⟩ := not_or.1 (mt List.mem_cons.2 h)
    simp [splitAtChar, Ne.symm hc, ih hcs]

/-- Splitting undoes joining. -/
theorem splitAtChar_joinWith {ps : List (List Char)} (hne : ps ≠ []) (h : ∀ p ∈ ps, sep ∉ p) :
    splitAtChar sep (joinWith [sep] ps) = ps := by
  induction ps with
  | nil => exact absurd rfl hne
  | cons p ps ih =>
    obtain ⟨hp, hps⟩ := List.forall_mem_cons.1 h
    cases ps with
    | nil => exact splitAtChar_of_not_mem hp
    | cons q rest =>
      rw [joinWith, List.append_assoc, List.singleton_append, splitAtChar_append hp, ih (List.cons_ne_nil q rest) hps]

end Cut

/-! ## Digits -/

theorem digitChar_mem (d : Nat) : digitChar d ∈ digitChars := by
  rw [digitChar, List.getD_eq_getElem?_getD]
  cases h : digitChars[d]? with
  | none => decide
  | some c => exact List.mem_of_getElem? h

theorem pieceChar_digitChar (d : Nat) : pieceChar (digitChar d) = true := by
  have hall : ∀ c ∈ digitChars, pieceChar c = true := by simp [digitChars, pieceChar, isDigit, isLetter]
  exact hall _ (digitChar_mem d)

theorem digitValue_digitChar {base d : Nat} (hbase : base ≤ 16) (hd : d < base) :
    digitValue base (digitChar d) = some d := by
  have hd16 : d < 16 := lt_of_lt_of_le hd hbase
  interval_cases d <;> simp [digitValue, digitChar, digitChars, isDigit, hd]

theorem isPiece_fixedDigits (base k n : Nat) : IsPiece (fixedDigits base k n) := by
  induction k generalizing n with
  | zero => exact fun c h => absurd h (List.not_mem_nil)
  | succ k ih => exact (ih _).append (by simp [IsPiece, pieceChar_digitChar])

theorem isPiece_digits (base k n : Nat) : IsPiece (digits base k n) := by
  induction k generalizing n with
  | zero => simp [digits, IsPiece, pieceChar_digitChar]
  | succ k ih =>
    rw [digits]
    split
    · simp [IsPiece, pieceChar_digitChar]
    · exact (ih _).append (by simp [IsPiece, pieceChar_digitChar])

theorem digits_ne_nil (base k n : Nat) : digits base k n ≠ [] := by
  cases k with
  | zero => simp [digits]
  | succ k => rw [digits]; split <;> simp

section ReadDigits
variable {base : Nat}

theorem readDigits_append (acc : Nat) (cs ds : List Char) :
    readDigits base acc (cs ++ ds) = (readDigits base acc cs).bind fun v => readDigits base v ds := by
  induction cs generalizing acc with
  | nil => rfl
  | cons c cs ih =>
    rw [List.cons_append, readDigits, readDigits]
    cases digitValue base c with
    | none => rfl
    | some d => exact ih _

theorem readDigits_digitChar (hbase : base ≤ 16) (acc : Nat) {d : Nat} (hd : d < base) :
    readDigits base acc [digitChar d] = some (acc * base + d) := by
  simp [readDigits, digitValue_digitChar hbase hd]

theorem readNumber_of_ne_nil {cs : List Char} (h : cs ≠ []) : readNumber base cs = readDigits base 0 cs := by
  cases cs with
  | nil => exact absurd rfl h
  | cons c cs => rfl

theorem readDigits_fixedDigits (hpos : 0 < base) (hbase : base ≤ 16) (acc k : Nat) {n : Nat} (hn : n < base ^ k) :
    readDigits base acc (fixedDigits base k n) = some (acc * base ^ k + n) := by
  induction k generalizing n with
  | zero =>
    obtain rfl : n = 0 := by simpa using hn
    simp [fixedDigits, readDigits]
  | succ k ih =>
    have hdiv : n / base < base ^ k := Nat.div_lt_of_lt_mul (by rwa [← Nat.pow_succ'])
    have hvalue : (acc * base ^ k + n / base) * base + n % base = acc * base ^ (k + 1) + n := by
      rw [Nat.add_mul, Nat.mul_assoc, ← Nat.pow_succ, Nat.add_assoc, Nat.mul_comm (n / base), Nat.div_add_mod]
    rw [fixedDigits, readDigits_append, ih hdiv, Option.bind_some,
      readDigits_digitChar hbase _ (Nat.mod_lt n hpos), hvalue]

theorem readDigits_digits (hpos : 0 < base) (hbase : base ≤ 16) (k : Nat) {n : Nat} (hn : n < base ^ (k + 1)) :
    readDigits base 0 (digits base k n) = some n := by
  induction k generalizing n with
  | zero =>
    rw [Nat.zero_add, Nat.pow_one] at hn
    rw [digits, Nat.mod_eq_of_lt hn, readDigits_digitChar hbase 0 hn, Nat.zero_mul, Nat.zero_add]
  | succ k ih =>
    rw [digits]
    split
    next hlt => rw [readDigits_digitChar hbase 0 hlt, Nat.zero_mul, Nat.zero_add]
    next =>
      have hdiv : n / base < base ^ (k + 1) := Nat.div_lt_of_lt_mul (by rwa [← Nat.pow_succ'])
      rw [readDigits_append, ih hdiv, Option.bind_some, readDigits_digitChar hbase _ (Nat.mod_lt n hpos),
        Nat.mul_comm, Nat.div_add_mod]

end ReadDigits

/-- An int32's magnitude has at most eleven decimal digits. -/
theorem readNumber_digits {n : Nat} (h : n ≤ 2 ^ 31) : readNumber 10 (digits 10 10 n) = some n := by
  rw [readNumber_of_ne_nil (digits_ne_nil 10 10 n), readDigits_digits (by decide) (by decide) 10 (by omega)]

/-! ## Names -/

/-- A letter is no decimal digit. -/
theorem digitValue_of_isLetter {c : Char} (h : isLetter c = true) : digitValue 10 c = none := by
  simp only [isLetter, Bool.or_eq_true, Bool.and_eq_true, decide_eq_true_eq] at h
  have hdigit : ¬ isDigit c = true := by
    simp only [isDigit, Bool.and_eq_true, decide_eq_true_eq]
    omega
  simp only [digitValue, if_neg hdigit, ite_eq_right_iff, reduceCtorEq, imp_false, not_lt]
  split
  · omega
  · split <;> omega

section Name
variable {x : HostName} (h : nameOk x = true)
include h

theorem exists_letter_of_nameOk : ∃ c cs, x = c :: cs ∧ isLetter c = true := by
  cases x with
  | nil => cases h
  | cons c cs => exact ⟨c, cs, rfl, (Bool.and_eq_true_iff.1 h).1⟩

theorem isPiece_of_nameOk : IsPiece x := by
  cases x with
  | nil => cases h
  | cons c cs =>
    obtain ⟨hc, hcs⟩ := Bool.and_eq_true_iff.1 h
    refine List.forall_mem_cons.2 ⟨by simp [pieceChar, hc], fun d hd => ?_⟩
    simp only [pieceChar, List.all_eq_true.1 hcs d hd, Bool.true_or]

theorem readNumber_of_nameOk : readNumber 10 x = none := by
  obtain ⟨c, cs, rfl, hc⟩ := exists_letter_of_nameOk h
  simp [readNumber, readDigits, digitValue_of_isLetter hc]

end Name

/-! ## Operands -/

/-- A decimal number begins with neither `0x` nor a minus sign. -/
theorem readOperand_of_readNumber {cs : List Char} {n : Nat} (h : readNumber 10 cs = some n) :
    readOperand cs = decOperand n := by
  unfold readOperand
  split
  next ds => simp [readNumber, readDigits, digitValue, isDigit] at h
  next ds => simp [readNumber, readDigits, digitValue, isDigit] at h
  next => simp [h]

theorem readOperand_of_nameOk {x : HostName} (h : nameOk x = true) : readOperand x = some (.held x) := by
  have hnum := readNumber_of_nameOk h
  unfold readOperand
  split
  next => exact absurd h (by simp [nameOk, isLetter])
  next => exact absurd h (by simp [nameOk, isLetter])
  next => simp [hnum, h]

theorem readOperand_text {o : Operand} (h : o.wf = true) : readOperand (Operand.text o) = some o := by
  cases o with
  | hex w =>
    have hread : readNumber 16 (fixedDigits 16 8 w.toNat) = some w.toNat := by
      rw [readNumber_of_ne_nil (by simp [fixedDigits]),
        readDigits_fixedDigits (by decide) (by decide) 0 8 (by have := w.isLt; omega), Nat.zero_mul, Nat.zero_add]
    simp [Operand.text, readOperand, hread, w.isLt]
  | dec n =>
    obtain ⟨hlo, hhi⟩ : -2 ^ 31 ≤ n ∧ n < 2 ^ 31 := by simpa [Operand.wf] using h
    have hread : readNumber 10 (digits 10 10 n.natAbs) = some n.natAbs := readNumber_digits (by omega)
    have hdec : decOperand n = some (.dec n) := if_pos ⟨hlo, hhi⟩
    rw [Operand.text]
    split
    next hneg =>
      have habs : -(n.natAbs : Int) = n := by omega
      simp only [readOperand, hread, habs, hdec]
    next hneg =>
      have habs : (n.natAbs : Int) = n := by omega
      rw [readOperand_of_readNumber hread, habs, hdec]
  | held x => exact readOperand_of_nameOk h

theorem isPiece_text {o : Operand} (h : o.wf = true) : IsPiece (Operand.text o) := by
  cases o with
  | hex w => exact IsPiece.append (by simp [IsPiece, pieceChar, isDigit, isLetter]) (isPiece_fixedDigits 16 8 w.toNat)
  | dec n =>
    rw [Operand.text]
    split
    · exact IsPiece.append (cs := ['-']) (by simp [IsPiece, pieceChar]) (isPiece_digits 10 10 n.natAbs)
    · exact isPiece_digits 10 10 n.natAbs
  | held x => exact isPiece_of_nameOk h

theorem readOperands_map_text {os : List Operand} (h : ∀ o ∈ os, o.wf = true) :
    readOperands (os.map Operand.text) = some os := by
  induction os with
  | nil => rfl
  | cons o os ih =>
    obtain ⟨ho, hos⟩ := List.forall_mem_cons.1 h
    simp [readOperands, readOperand_text ho, ih hos]

/-- The operand list, written and read again. -/
theorem readOperands_joinWith {os : List Operand} (hne : os ≠ []) (h : ∀ o ∈ os, o.wf = true) :
    readOperands (splitAtChar ',' (noSpaces (joinWith [',', ' '] (os.map Operand.text)))) = some os := by
  have hpieces : ∀ p ∈ os.map Operand.text, IsPiece p := List.forall_mem_map.2 fun o ho => isPiece_text (h o ho)
  rw [noSpaces_joinWith hpieces,
    splitAtChar_joinWith (by simpa using hne) (fun p hp => (hpieces p hp).not_mem (by decide)), readOperands_map_text h]

/-! ## The left side and the mnemonic -/

/-- A well-formed left side is one name or three. -/
theorem names_of_fits {r : ResultName} {i : Instr} (h : r.fits i = true) :
    (∃ x, r = .single x ∧ nameOk x = true) ∨
      ∃ s e m, r = .triple s e m ∧ nameOk s = true ∧ nameOk e = true ∧ nameOk m = true := by
  cases r with
  | single x => exact .inl ⟨x, rfl, (Bool.and_eq_true_iff.1 h).1⟩
  | triple s e m =>
    simp only [ResultName.fits, Bool.and_eq_true] at h
    obtain ⟨⟨⟨hs, he⟩, hm⟩, -⟩ := h
    exact .inr ⟨s, e, m, rfl, hs, he, hm⟩

theorem readResult_of_nameOk {x : HostName} (h : nameOk x = true) : readResult x = some (.single x) := by
  unfold readResult
  split
  next => exact absurd h (by simp [nameOk, isLetter])
  next => rfl

theorem readResult_triple {s e m : HostName} (hs : IsPiece s) (he : IsPiece e) (hm : IsPiece m) :
    readResult ('(' :: joinWith [','] [s, e, m ++ [')']]) = some (.triple s e m) := by
  have hcomma : ∀ p ∈ [s, e, m ++ [')']], ',' ∉ p := by
    simp [hs.not_mem (sep := ',') (by decide), he.not_mem (sep := ',') (by decide), hm.not_mem (sep := ',') (by decide)]
  have hclose : cutAtChar ')' (m ++ [')']) = some (m, []) := cutAtChar_append (hm.not_mem (by decide)) []
  rw [readResult, splitAtChar_joinWith (by simp) hcomma]
  simp [hclose]

theorem noSpaces_triple_text {s e m : HostName} (hs : IsPiece s) (he : IsPiece e) (hm : IsPiece m) :
    noSpaces (ResultName.text (.triple s e m)) = '(' :: joinWith [','] [s, e, m ++ [')']] := by
  have hopen : noSpaces ['('] = ['('] := by decide
  have hclose : noSpaces [')'] = [')'] := by decide
  have hnames : ∀ p ∈ [s, e, m], IsPiece p := by simp [hs, he, hm]
  rw [ResultName.text, noSpaces_append, noSpaces_append, noSpaces_joinWith hnames, hopen, hclose]
  simp [joinWith]

theorem readResult_text {r : ResultName} {i : Instr} (h : r.fits i = true) :
    readResult (noSpaces (ResultName.text r)) = some r := by
  obtain ⟨x, rfl, hx⟩ | ⟨s, e, m, rfl, hs, he, hm⟩ := names_of_fits h
  · rw [ResultName.text, noSpaces_of_isPiece (isPiece_of_nameOk hx), readResult_of_nameOk hx]
  · replace hs := isPiece_of_nameOk hs
    replace he := isPiece_of_nameOk he
    replace hm := isPiece_of_nameOk hm
    rw [noSpaces_triple_text hs he hm, readResult_triple hs he hm]

theorem equals_not_mem_text {r : ResultName} {i : Instr} (h : r.fits i = true) : '=' ∉ ResultName.text r := by
  obtain ⟨x, rfl, hx⟩ | ⟨s, e, m, rfl, hs, he, hm⟩ := names_of_fits h
  · exact (isPiece_of_nameOk hx).not_mem (by decide)
  · simp [ResultName.text, joinWith, (isPiece_of_nameOk hs).not_mem (sep := '=') (by decide),
      (isPiece_of_nameOk he).not_mem (sep := '=') (by decide), (isPiece_of_nameOk hm).not_mem (sep := '=') (by decide)]

theorem space_not_mem_mnemonic (i : Instr) : ' ' ∉ i.mnemonic := by cases i <;> decide

theorem dropSpaces_mnemonic (i : Instr) (rest : List Char) :
    dropSpaces (' ' :: (i.mnemonic ++ rest)) = i.mnemonic ++ rest := by
  cases i <;> rfl

theorem instrOfMnemonic_mnemonic (i : Instr) : instrOfMnemonic i.mnemonic opTable = some i := by cases i <;> decide

/-! ## The line -/

/-- The three parts a well-formed line has (R48). -/
theorem requestLine_wf_iff {l : RequestLine} :
    l.wf = true ↔ l.result.fits l.instr = true ∧ l.operands.length = l.instr.reads.length ∧
      ∀ o ∈ l.operands, o.wf = true := by
  simp [RequestLine.wf, and_assoc]

theorem operands_ne_nil_of_wf {l : RequestLine} (h : l.wf = true) : l.operands ≠ [] := by
  obtain ⟨-, hlen, -⟩ := requestLine_wf_iff.1 h
  have hreads : l.instr.reads ≠ [] := by cases l.instr <;> decide
  rwa [← List.length_pos_iff, hlen, List.length_pos_iff]

/-- Settles O4: the line is cut at `=` and after the mnemonic, which no part before holds, and each of its three parts is
read as what was written. -/
theorem writtenRequestLineReadsBack : Obligations.WrittenRequestLineReadsBack := by
  unfold Obligations.WrittenRequestLineReadsBack
  intro l hwf
  obtain ⟨hfits, -, hoperands⟩ := requestLine_wf_iff.1 hwf
  have htext : RequestLine.text l = (ResultName.text l.result ++ [' ']) ++ '=' :: ' ' ::
      (l.instr.mnemonic ++ ' ' :: joinWith [',', ' '] (l.operands.map Operand.text)) := by
    simp [RequestLine.text]
  have hequals : '=' ∉ ResultName.text l.result ++ [' '] := by simp [equals_not_mem_text hfits]
  have hleft : noSpaces (ResultName.text l.result ++ [' ']) = noSpaces (ResultName.text l.result) := by
    rw [noSpaces_append, show noSpaces [' '] = [] by decide, List.append_nil]
  rw [readLine, htext, cutAtChar_append hequals]
  simp only [dropSpaces_mnemonic, cutAtChar_append (space_not_mem_mnemonic l.instr), hleft, readResult_text hfits,
    instrOfMnemonic_mnemonic, readOperands_joinWith (operands_ne_nil_of_wf hwf) hoperands]
  exact if_pos hwf

/-! ## The ports the operands go to -/

section DriveOperands
variable {env : HostEnv} {ports : InPorts} {port : InPort} {rest : List InPort} {o : Operand} {os : List Operand}

theorem driveOperands_of_word {w : Word} (h : operandWord env o = some w) :
    driveOperands env ports (port :: rest) (o :: os) =
      (drivePort ports w port).bind fun driven => driveOperands env driven rest os := by
  simp only [driveOperands, h]
  cases drivePort ports w port <;> rfl

theorem driveOperands_of_none (h : operandWord env o = none) :
    driveOperands env ports (port :: rest) (o :: os) = none := by
  simp only [driveOperands, h]

end DriveOperands

/-- Settles O5: each operand's word drives the next port of the operation's row; a name without a value gives no request. -/
theorem lineOperandsGoToPortsInOrder : Obligations.LineOperandsGoToPortsInOrder := by
  unfold Obligations.LineOperandsGoToPortsInOrder
  refine ⟨fun env res i x hreads => ?_, fun env res i x z hreads => ?_, fun env res x e m w v u hx he hm hw hu => ?_⟩
  · rw [lineRequest, hreads]
    cases hx : operandWord env x with
    | none => rw [driveOperands_of_none hx]; rfl
    | some w => rw [driveOperands_of_word hx]; rfl
  · rw [lineRequest, hreads]
    cases hx : operandWord env x with
    | none => rw [driveOperands_of_none hx]; rfl
    | some w =>
      rw [driveOperands_of_word hx, drivePort, Option.bind_some]
      cases hz : operandWord env z with
      | none => rw [driveOperands_of_none hz]; rfl
      | some v => rw [driveOperands_of_word hz]; rfl
  · have hs (ports : InPorts) : drivePort ports w .sIn = some { ports with sIn := some (w.setWidth 1) } := if_pos hw
    have hmant (ports : InPorts) : drivePort ports u .mIn = some { ports with mIn := some (u.setWidth 8) } := if_pos hu
    rw [lineRequest, Instr.reads, driveOperands_of_word hx, hs, Option.bind_some, driveOperands_of_word he, drivePort,
      Option.bind_some, driveOperands_of_word hm, hmant]
    rfl
end Sys2Proof.Machine
end

section
/-! The ten operations have three shapes; from these what an operation reads and answers (10_state.md R20), what it leaves
unchanged, and the invariant of responses. -/

namespace Sys2Proof.Machine

/-! ## The three shapes of an operation -/

/-- Every operation's response is computed from the parameters and the values on the ports of its row (R20, R25). -/
theorem exec_shape (i : Instr) :
    (i.reads = [.a] ∧ ∃ f : Params → Word → OutPorts, ∀ s, exec i s = answerFromA s (f s.params)) ∨
    (i.reads = [.a, .b] ∧ ∃ f : Params → Word → Word → OutPorts, ∀ s, exec i s = answerFromAB s (f s.params)) ∨
    (i.reads = [.sIn, .eIn, .mIn] ∧
      ∃ f : Params → BitVec 1 → Word → BitVec 8 → OutPorts, ∀ s, exec i s = answerFromTriple s (f s.params)) := by
  cases i with
  | decode => exact .inl ⟨rfl, fun _ a => decodedTriple a, fun _ => rfl⟩
  | f2bf => exact .inl ⟨rfl, fun _ a => .word (fp32ToBf16 a), fun _ => rfl⟩
  | bf2f => exact .inl ⟨rfl, fun _ a => .word (clearLow a), fun _ => rfl⟩
  | i2bf => exact .inl ⟨rfl, fun p a => .word (intToBf16 p a), fun _ => rfl⟩
  | bf2i => exact .inl ⟨rfl, fun p a => .word (bf16ToInt p a), fun _ => rfl⟩
  | ln => exact .inl ⟨rfl, fun p a => .word (lnWord p a), fun _ => rfl⟩
  | add => exact .inr (.inl ⟨rfl, fun p a b => .word (addsub p a b false), fun _ => rfl⟩)
  | sub => exact .inr (.inl ⟨rfl, fun p a b => .word (addsub p a b true), fun _ => rfl⟩)
  | mul => exact .inr (.inl ⟨rfl, fun p a b => .word (mulbf p a b), fun _ => rfl⟩)
  | encode => exact .inr (.inr ⟨rfl, fun p sg e m => .word (encodedWord p sg e m), fun _ => rfl⟩)

/-- What an operation that goes on has done: it gave one response, BF.DECODE a triple and every other a word. -/
theorem exec_next {i : Instr} {s t : State} (h : exec i s = .next t) :
    t = s.respond t.out ∧
      ((i = .decode ∧ ∃ a, t.out = decodedTriple a) ∨ (i ≠ .decode ∧ ∃ y, t.out = .word y)) := by
  cases i with
  | decode =>
    obtain ⟨a, -, rfl⟩ := answerFromA_next.1 h
    exact ⟨rfl, .inl ⟨rfl, a, rfl⟩⟩
  | f2bf | bf2f | i2bf | bf2i | ln =>
    obtain ⟨a, -, rfl⟩ := answerFromA_next.1 h
    exact ⟨rfl, .inr ⟨by decide, _, rfl⟩⟩
  | add | sub | mul =>
    obtain ⟨a, -, b, -, rfl⟩ := answerFromAB_next.1 h
    exact ⟨rfl, .inr ⟨by decide, _, rfl⟩⟩
  | encode =>
    obtain ⟨sg, -, e, -, m, -, rfl⟩ := answerFromTriple_next.1 h
    exact ⟨rfl, .inr ⟨by decide, _, rfl⟩⟩

/-- Equal parameters and equal values on the ports read give equal outcomes but for the state responded to (R25). -/
theorem exec_of_agreeFor {i : Instr} {s s' : State} {o : OutPorts} (hparams : s'.params = s.params)
    (hagree : s'.inp.agreeFor s.inp i) (h : exec i s = .next (s.respond o)) : exec i s' = .next (s'.respond o) := by
  obtain ⟨hreads, f, hf⟩ | ⟨hreads, f, hf⟩ | ⟨hreads, f, hf⟩ := exec_shape i
  all_goals
    rw [InPorts.agreeFor, hreads] at hagree
    rw [hf] at h ⊢
    rw [hparams]
  · obtain ⟨a, ha, hresp⟩ := answerFromA_next.1 h
    obtain rfl : o = f s.params a := congrArg State.out hresp
    have ha' : s'.inp.a = s.inp.a := hagree .a (by decide)
    exact answerFromA_next.2 ⟨a, ha'.trans ha, rfl⟩
  · obtain ⟨a, ha, b, hb, hresp⟩ := answerFromAB_next.1 h
    obtain rfl : o = f s.params a b := congrArg State.out hresp
    have ha' : s'.inp.a = s.inp.a := hagree .a (by decide)
    have hb' : s'.inp.b = s.inp.b := hagree .b (by decide)
    exact answerFromAB_next.2 ⟨a, ha'.trans ha, b, hb'.trans hb, rfl⟩
  · obtain ⟨sg, hs, e, he, m, hm, hresp⟩ := answerFromTriple_next.1 h
    obtain rfl : o = f s.params sg e m := congrArg State.out hresp
    have hs' : s'.inp.sIn = s.inp.sIn := hagree .sIn (by decide)
    have he' : s'.inp.eIn = s.inp.eIn := hagree .eIn (by decide)
    have hm' : s'.inp.mIn = s.inp.mIn := hagree .mIn (by decide)
    exact answerFromTriple_next.2 ⟨sg, hs'.trans hs, e, he'.trans he, m, hm'.trans hm, rfl⟩

/-! ## Ports read and written -/

theorem carries_word (y : Word) (q : OutPort) : (OutPorts.word y).carries q = true ↔ q ∈ [OutPort.y] := by
  cases q <;> simp [OutPorts.carries, OutPorts.word]

theorem carries_triple (sg : BitVec 1) (e : Word) (m : BitVec 8) (q : OutPort) :
    (OutPorts.triple sg e m).carries q = true ↔ q ∈ [OutPort.sOut, .eOut, .mOut] := by
  cases q <;> simp [OutPorts.carries, OutPorts.triple]

theorem writes_of_ne_decode {i : Instr} (h : i ≠ .decode) : i.writes = [.y] := by
  cases i with
  | decode => exact absurd rfl h
  | _ => rfl

/-- A response carries a value on exactly the ports of the operation's write column (R20). -/
theorem carries_iff_mem_writes {i : Instr} {s t : State} (h : exec i s = .next t) (q : OutPort) :
    t.out.carries q = true ↔ q ∈ i.writes := by
  obtain ⟨-, ⟨rfl, a, hout⟩ | ⟨hi, y, hout⟩⟩ := exec_next h
  · rw [hout]
    exact carries_triple ..
  · rw [hout, writes_of_ne_decode hi]
    exact carries_word y q

/-- Settles O8: an operation with its ports driven answers on its row's ports, and its shape computes the response from the
values on those ports. -/
theorem operationsReadAndWriteOnlyTheirPorts : Obligations.OperationsReadAndWriteOnlyTheirPorts := by
  unfold Obligations.OperationsReadAndWriteOnlyTheirPorts
  refine ⟨fun i => by cases i <;> decide, fun i s hdrives => ?_⟩
  obtain ⟨o, ho⟩ := exec_of_drives hdrives
  exact ⟨o, ho, carries_iff_mem_writes ho, fun s' hparams hagree => exec_of_agreeFor hparams hagree ho⟩

theorem withPort_none {α : Type} (p : InPort) (k : α → Result) : withPort none p k = .refused (.portNotDriven p) := rfl

theorem withPort_some {α : Type} (v : α) (p : InPort) (k : α → Result) : withPort (some v) p k = k v := rfl

/-- Settles O9: each shape reads its ports in the row's order and stops at the first without a value. -/
theorem undrivenPortIsRefused : Obligations.UndrivenPortIsRefused := by
  unfold Obligations.UndrivenPortIsRefused
  intro i s p hfind
  obtain ⟨hreads, f, hf⟩ | ⟨hreads, f, hf⟩ | ⟨hreads, f, hf⟩ := exec_shape i
  all_goals rw [hreads] at hfind; rw [hf]
  · cases ha : s.inp.a with
    | none =>
      obtain rfl : .a = p := by simpa [InPorts.driven, ha] using hfind
      rw [answerFromA, ha, withPort_none]
    | some a => simp [InPorts.driven, ha] at hfind
  · rw [answerFromAB]
    cases ha : s.inp.a with
    | none =>
      obtain rfl : .a = p := by simpa [InPorts.driven, ha] using hfind
      rw [withPort_none]
    | some a =>
      cases hb : s.inp.b with
      | none =>
        obtain rfl : .b = p := by simpa [InPorts.driven, ha, hb] using hfind
        rw [withPort_some, withPort_none]
      | some b => simp [InPorts.driven, ha, hb] at hfind
  · rw [answerFromTriple]
    cases hs : s.inp.sIn with
    | none =>
      obtain rfl : .sIn = p := by simpa [InPorts.driven, hs] using hfind
      rw [withPort_none]
    | some sg =>
      cases he : s.inp.eIn with
      | none =>
        obtain rfl : .eIn = p := by simpa [InPorts.driven, hs, he] using hfind
        rw [withPort_some, withPort_none]
      | some e =>
        cases hm : s.inp.mIn with
        | none =>
          obtain rfl : .mIn = p := by simpa [InPorts.driven, hs, he, hm] using hfind
          rw [withPort_some, withPort_some, withPort_none]
        | some m => simp [InPorts.driven, hs, he, hm] at hfind

/-! ## Frames and steps -/

/-- Settles O10: what an operation does is `respond`, which touches the result ports and the responses alone. -/
theorem operationsChangeOnlyTheResponse : Obligations.OperationsChangeOnlyTheResponse := by
  unfold Obligations.OperationsChangeOnlyTheResponse
  intro i s t h
  obtain ⟨hresp, -⟩ := exec_next h
  generalize t.out = o at hresp
  subst hresp
  exact ⟨rfl, rfl, rfl, rfl, rfl⟩

/-- Settles O11: a step stays, responds or resets, none of which writes a parameter. -/
theorem parametersNeverChange : Obligations.ParametersNeverChange := by
  unfold Obligations.ParametersNeverChange
  intro s t h
  obtain ⟨-, rfl⟩ | ⟨r, rest, i, -, -, hexec⟩ | ⟨r, rest, i, u, -, -, -, rfl⟩ | ⟨rest, -, rfl⟩ := takeEvent_next h
  · rfl
  · rw [(exec_next hexec).1, State.respond_params, State.present_params]
  · rfl
  · rfl

/-- Settles O6: a step serves the request, and its code decodes to `i`. -/
theorem stepRunsTheDecodedOperation : Obligations.StepRunsTheDecodedOperation := by
  unfold Obligations.StepRunsTheDecodedOperation
  intro s r rest i hev hdecode
  rw [step_of_request hev, serve_of_op (s.present_op r rest) hdecode, State.present]

theorem step_of_idle {s : State} (h : s.events = []) : step s = .next s := by
  simp [step, takeEvent, h]

/-- Settles O7: with no event to take, `takeEvent` answers the state it is given. -/
theorem idleStepChangesNothing : Obligations.IdleStepChangesNothing := by
  unfold Obligations.IdleStepChangesNothing
  exact fun s h => step_of_idle h

/-- Settles O3, by the decoder's lemma. -/
theorem decodeOfEncodeIsTheOperation : Obligations.DecodeOfEncodeIsTheOperation := by
  unfold Obligations.DecodeOfEncodeIsTheOperation
  exact decode_encode

/-! ## The invariant of responses -/

/-- The triple's exponent is an unbiased one and its significand has the implicit bit (R19). -/
theorem decodedTriple_legal (a : Word) : (decodedTriple a).legal := by
  refine .inr ⟨_, _, _, rfl, ?_, ?_, ?_⟩
  · rw [s32_u32_unbias]; exact (unbias_range _).1
  · rw [s32_u32_unbias]; exact (unbias_range _).2
  · rw [significand_toNat]; exact Nat.le_add_right ..

theorem exec_legal {i : Instr} {s t : State} (h : exec i s = .next t) : t.out.legal := by
  obtain ⟨-, ⟨-, a, hout⟩ | ⟨-, y, hout⟩⟩ := exec_next h
  · rw [hout]; exact decodedTriple_legal a
  · exact .inl ⟨y, hout⟩

theorem State.Inv.respond {s : State} (hs : s.Inv) {o : OutPorts} (ho : o.legal) (r : Request) (rest : List HostEvent) :
    ((s.present r rest).respond o).Inv where
  legal := by
    simp only [State.respond_responses, State.present_responses, List.forall_mem_append, List.forall_mem_singleton]
    exact ⟨hs.legal, ho⟩
  ports := .inr (by simp)

theorem State.Inv.resetUnit {s : State} (hs : s.Inv) (rest : List HostEvent) : (s.resetUnit rest).Inv where
  legal := hs.legal
  ports := .inl rfl

/-- Settles O50: a step stays, gives one legal response, or resets the ports and keeps the responses. -/
theorem stepKeepsResponsesLegal : Obligations.StepKeepsResponsesLegal := by
  unfold Obligations.StepKeepsResponsesLegal
  intro s t hs h
  obtain ⟨-, rfl⟩ | ⟨r, rest, i, -, -, hexec⟩ | ⟨r, rest, i, u, -, -, -, rfl⟩ | ⟨rest, -, rfl⟩ := takeEvent_next h
  · exact hs
  · rw [(exec_next hexec).1]
    exact hs.respond (exec_legal hexec) r rest
  · exact hs.resetUnit rest
  · exact hs.resetUnit rest

/-- Settles O51: nothing has been answered at reset. -/
theorem resetHasLegalResponses : Obligations.ResetHasLegalResponses := by
  unfold Obligations.ResetHasLegalResponses
  exact { legal := fun o h => absurd h List.not_mem_nil, ports := .inl State.reset_out }

end Sys2Proof.Machine
end

section
/-! Runs (R33, R108, R109, R113): what the result ports carry reaches no step, a step takes one well-formed event and gives
the responses due to it, and from these what a run of many steps ends in. -/

namespace Sys2Proof.Machine

/-! ## Reset (R108) -/

/-- Settles O43: abandoning a well-formed request resets the unit as a reset alone does. -/
theorem resetEventClearsThePorts : Obligations.ResetEventClearsThePorts := by
  unfold Obligations.ResetEventClearsThePorts
  intro s r rest h
  obtain hreset | ⟨habandoned, hwf⟩ := h
  · exact step_of_reset hreset
  · exact step_of_wf_requestThenReset hwf habandoned

/-- No operation sees what the result ports carry: a response replaces it. -/
theorem exec_set_out (i : Instr) (s : State) (o : OutPorts) : exec i { s with out := o } = exec i s := by
  cases i <;> rfl

/-- Neither does `serve`, when there is a request to serve. -/
theorem serve_set_out {s : State} {code : BitVec 4} (hop : s.op = some code) (o : OutPorts) :
    serve { s with out := o } = serve s := by
  cases hdecode : decode code with
  | op i =>
    rw [serve_of_op (s := s) hop hdecode, serve_of_op (s := { s with out := o }) hop hdecode]
    exact exec_set_out i s o
  | reserved c =>
    rw [serve_of_reserved (s := s) hop hdecode, serve_of_reserved (s := { s with out := o }) hop hdecode]

/-- Settles O44: with the request on the ports, the state after a reset differs from the state without it in the result
ports alone. -/
theorem resetHasNoVisibleEffect : Obligations.ResetHasNoVisibleEffect := by
  unfold Obligations.ResetHasNoVisibleEffect
  intro s r rest hev
  refine ⟨_, step_of_reset hev, s.resetUnit_responses _, ?_⟩
  rw [step_of_request (s.resetUnit_events _), step_of_request (s := { s with events := .request r :: rest }) rfl]
  exact serve_set_out (s := s.present r rest) (s.present_op r rest) OutPorts.silent

/-! ## One well-formed event -/

/-- A well-formed request has one response at given parameters, whatever the state it is presented in (R25). -/
theorem exists_answer_of_wf {r : Request} (hwf : r.wf = true) (p : Params) :
    ∃ o, ∀ (s : State) (rest : List HostEvent), s.params = p → s.events = .request r :: rest →
      step s = .next ((s.present r rest).respond o) := by
  obtain ⟨i, hdecode, hdrives⟩ := Request.wf_iff.1 hwf
  obtain ⟨o, ho⟩ := exec_of_drives (s := { State.reset with params := p, inp := r.ports }) hdrives
  refine ⟨o, fun s rest hparams hev => ?_⟩
  rw [step_of_request hev, serve_of_op (s.present_op r rest) hdecode]
  refine exec_of_agreeFor ?_ (fun port _ => ?_) ho
  · exact hparams
  · cases port <;> rfl

/-- The response is the one a freshly reset unit gives (R110). -/
theorem step_of_wf_request_freshAnswer {r : Request} (hwf : r.wf = true) (p : Params) :
    ∃ o, freshAnswer p r = [o] ∧ ∀ (s : State) (rest : List HostEvent), s.params = p →
      s.events = .request r :: rest → step s = .next ((s.present r rest).respond o) := by
  obtain ⟨o, ho⟩ := exists_answer_of_wf hwf p
  refine ⟨o, ?_, ho⟩
  rw [freshAnswer, ho { State.reset with params := p, events := [.request r] } [] rfl rfl]
  rfl

/-- A step takes a well-formed event and gives exactly the responses due to it. -/
theorem step_of_wf_event {s : State} {ev : HostEvent} {rest : List HostEvent} (hwf : ev.wf = true)
    (hev : s.events = ev :: rest) :
    ∃ t, step s = .next t ∧ t.params = s.params ∧ t.events = rest ∧
      t.responses = s.responses ++ answersDue s.params ev := by
  cases ev with
  | request r =>
    obtain ⟨o, hfresh, hstep⟩ := step_of_wf_request_freshAnswer hwf s.params
    refine ⟨_, hstep s rest rfl hev, rfl, rfl, ?_⟩
    rw [answersDue, hfresh, State.respond_responses, State.present_responses]
  | requestThenReset r =>
    exact ⟨_, step_of_wf_requestThenReset hwf hev, rfl, rfl, (List.append_nil _).symm⟩
  | reset => exact ⟨_, step_of_reset hev, rfl, rfl, (List.append_nil _).symm⟩

/-! ## Runs -/

theorem run_add_of_run {M : Host.Core} {s t : M.State} {j : Nat} (k : Nat) (h : M.run j s = .next t) :
    M.run (j + k) s = M.run k t := by
  induction j generalizing s with
  | zero =>
    obtain rfl : s = t := Host.Outcome.next.inj h
    rw [Nat.zero_add]
  | succ j ih =>
    cases hstep : M.step s with
    | next u =>
      rw [run_succ_of_step j hstep] at h
      rw [Nat.succ_add, run_succ_of_step (j + k) hstep, ih h]
    | fault r => simp [Host.Core.run, hstep] at h
    | refused r => simp [Host.Core.run, hstep] at h

theorem run_succ_of_refused {M : Host.Core} {s : M.State} {q : M.Refusal} (k : Nat) (h : M.step s = .refused q) :
    M.run (k + 1) s = .refused q := by
  simp [Host.Core.run, h]

/-- A run of as many steps as there are well-formed events takes them all and gives the responses due, in order (R33). -/
theorem run_of_wf_events {es rest : List HostEvent} (hwf : es.all HostEvent.wf = true) :
    ∀ s : State, s.events = es ++ rest →
      ∃ t : State, Host.Core.run core es.length s = .next t ∧ t.events = rest ∧
        t.responses = s.responses ++ es.flatMap (answersDue s.params) := by
  induction es with
  | nil => exact fun s hev => ⟨s, rfl, hev, (List.append_nil _).symm⟩
  | cons ev es ih =>
    obtain ⟨hev_wf, hes_wf⟩ : ev.wf = true ∧ es.all HostEvent.wf = true := by simpa using hwf
    intro s hev
    obtain ⟨u, hstep, hparams, hevents, hresponses⟩ := step_of_wf_event hev_wf hev
    obtain ⟨t, hrun, hrest, ht⟩ := ih hes_wf u hevents
    refine ⟨t, (run_succ_of_step (M := core) es.length hstep).trans hrun, hrest, ?_⟩
    rw [ht, hresponses, hparams, List.flatMap_cons, List.append_assoc]

/-- Settles O47: the run goes on through the well-formed events, and its next step is refused. -/
theorem refusedRunStaysRefused : Obligations.RefusedRunStaysRefused := by
  unfold Obligations.RefusedRunStaysRefused
  intro s es rest r hev hwf hcode n hn
  obtain ⟨t, hrun, hrest, -⟩ := run_of_wf_events hwf s hev
  obtain ⟨k, rfl⟩ := Nat.exists_eq_add_of_lt hn
  have hstep : step t = .refused (.reservedOp r.op) := reservedCodeIsRefused t r rest hrest hcode
  rw [Nat.add_assoc]
  exact (run_add_of_run (M := core) (k + 1) hrun).trans (run_succ_of_refused (M := core) k hstep)

/-- Settles O48: each step of the run gives the responses due to its event, and a request's is the fresh unit's one. -/
theorem runAnswersEachRequestAsIfAlone : Obligations.RunAnswersEachRequestAsIfAlone := by
  unfold Obligations.RunAnswersEachRequestAsIfAlone
  refine ⟨fun s es rest hev hwf => run_of_wf_events hwf s hev, fun p r hwf => ?_⟩
  obtain ⟨o, hfresh, -⟩ := step_of_wf_request_freshAnswer hwf p
  exact ⟨o, hfresh⟩

/-- One step of a dutiful host's run: the unit is idle or takes a well-formed event. -/
theorem step_of_dutiful {s : State} (h : dutiful s = true) : ∃ t, step s = .next t ∧ dutiful t = true := by
  cases hev : s.events with
  | nil => exact ⟨s, step_of_idle hev, h⟩
  | cons ev rest =>
    obtain ⟨hwf, hrest⟩ : ev.wf = true ∧ rest.all HostEvent.wf = true := by simpa [dutiful, hev] using h
    obtain ⟨t, hstep, -, hevents, -⟩ := step_of_wf_event hwf hev
    exact ⟨t, hstep, by rw [dutiful, hevents, hrest]⟩

/-- Settles O49, by induction on the number of steps. -/
theorem dutifulRunGoesOn : Obligations.DutifulRunGoesOn := by
  unfold Obligations.DutifulRunGoesOn
  intro n
  induction n with
  | zero => exact fun s h => ⟨s, rfl, h⟩
  | succ n ih =>
    intro s h
    obtain ⟨u, hstep, hu⟩ := step_of_dutiful h
    obtain ⟨t, hrun, ht⟩ := ih u hu
    exact ⟨t, (run_succ_of_step (M := core) n hstep).trans hrun, ht⟩

end Sys2Proof.Machine
end

section
/-! The halves of a bf16 container (R21, R22): the datapath reads the upper half alone and leaves the lower half zero; and
the sign bit of a second operand, the multiplier's ranges and BF.LN outside its domain. -/

namespace Sys2Proof.Machine

/-! ## The datapath reads the upper half (R21) -/

section ClearLow
variable (p : Params) (a b : Word)

@[simp] theorem upperHalf_clearLow : upperHalf (clearLow a) = upperHalf a := by
  apply BitVec.eq_of_toNat_eq
  rw [upperHalf_toNat, clearLow_toNat, upperHalf_toNat, Nat.mul_div_cancel _ (Nat.two_pow_pos 16)]

@[simp] theorem clearLow_clearLow : clearLow (clearLow a) = clearLow a := by
  apply BitVec.eq_of_toNat_eq
  rw [clearLow_toNat, clearLow_toNat, Nat.mul_div_cancel _ (Nat.two_pow_pos 16)]

@[simp] theorem isZeroBF_clearLow : isZeroBF (clearLow a) = isZeroBF a := by
  rw [Bool.eq_iff_iff, isZeroBF_iff, isZeroBF_iff, clearLow_toNat, Nat.mul_div_cancel _ (Nat.two_pow_pos 16)]

theorem opnd_clearLow : opnd (clearLow a) = opnd a := by
  simp only [opnd, fieldsOf_clearLow, isZeroBF_clearLow]

theorem decodedTriple_clearLow : decodedTriple (clearLow a) = decodedTriple a := by
  simp only [decodedTriple, fieldsOf_clearLow]

theorem netShift_clearLow : netShift (clearLow a) = netShift a := by
  simp only [netShift, fieldsOf_clearLow]

theorem saturates_clearLow (test : SatTest) : saturates test (clearLow a) = saturates test a := by
  cases test <;> simp only [saturates, netShift_clearLow, fieldsOf_clearLow]

theorem bf16ToInt_clearLow : bf16ToInt p (clearLow a) = bf16ToInt p a := by
  simp only [bf16ToInt, upperHalf_clearLow, saturates_clearLow, shiftedMag, flooredNeg, isZeroBF_clearLow,
    netShift_clearLow, fieldsOf_clearLow]

theorem addsub_clearLow (neg : Bool) : addsub p (clearLow a) (clearLow b) neg = addsub p a b neg := by
  simp only [addsub, opnd_clearLow]

theorem mulbf_clearLow : mulbf p (clearLow a) (clearLow b) = mulbf p a b := by
  simp only [mulbf, opnd_clearLow]

theorem lnNormal_clearLow : lnNormal (clearLow a) = lnNormal a := by
  simp only [lnNormal, fieldsOf_clearLow]

theorem lnPolynomial_clearLow : lnPolynomial p (clearLow a) = lnPolynomial p a := by
  simp only [lnPolynomial, lnMantissa, lnExponent, clearLow_clearLow]

/-- Outside its domain too: the free value is a function of the upper half (log entry 8). -/
theorem lnWord_clearLow : lnWord p (clearLow a) = lnWord p a := by
  rw [lnWord, lnWord, clearLow_clearLow, lnNormal_clearLow, lnPolynomial_clearLow, upperHalf_clearLow]

end ClearLow

section UpperHalf
variable {a a' : Word}

theorem clearLow_eq_of_upperHalf_eq (h : upperHalf a = upperHalf a') : clearLow a = clearLow a' := by
  apply BitVec.eq_of_toNat_eq
  rw [clearLow_toNat, clearLow_toNat, ← upperHalf_toNat, ← upperHalf_toNat, h]

/-- A function that does not see the low half is one of the upper half. -/
theorem eq_of_upperHalf_eq {α : Type} {f : Word → α} (hf : ∀ w, f (clearLow w) = f w)
    (h : upperHalf a = upperHalf a') : f a' = f a := by
  rw [← hf a', ← hf a, clearLow_eq_of_upperHalf_eq h]

end UpperHalf

/-- Settles O12: the seven datapaths do not see the low half. BF.F2BF rounds 0x3F808000 up and keeps 0x3F800000, and
BF.I2BF of 0 and of 1 differ. -/
theorem lowHalfOfBf16OperandIsIgnored : Obligations.LowHalfOfBf16OperandIsIgnored := by
  unfold Obligations.LowHalfOfBf16OperandIsIgnored
  refine ⟨fun i hi s a b a' b' ha hb => ?_, fun i hi s b => ?_⟩
  · have hclear : clearLow a = clearLow a' := clearLow_eq_of_upperHalf_eq ha
    have hclear' : clearLow b = clearLow b' := clearLow_eq_of_upperHalf_eq hb
    have haddsub (neg : Bool) : addsub s.params a' b' neg = addsub s.params a b neg := by
      rw [← addsub_clearLow, ← hclear, ← hclear', addsub_clearLow]
    have hmul : mulbf s.params a' b' = mulbf s.params a b := by
      rw [← mulbf_clearLow, ← hclear, ← hclear', mulbf_clearLow]
    simp only [List.mem_cons, List.not_mem_nil, or_false] at hi
    obtain rfl | rfl | rfl | rfl | rfl | rfl | rfl := hi
    · exact ⟨_, exec_decode rfl, eq_of_upperHalf_eq decodedTriple_clearLow ha ▸ exec_decode rfl⟩
    · exact ⟨_, exec_bf2f rfl, eq_of_upperHalf_eq clearLow_clearLow ha ▸ exec_bf2f rfl⟩
    · exact ⟨_, exec_bf2i rfl, eq_of_upperHalf_eq (bf16ToInt_clearLow s.params) ha ▸ exec_bf2i rfl⟩
    · exact ⟨_, exec_add rfl rfl, haddsub false ▸ exec_add rfl rfl⟩
    · exact ⟨_, exec_sub rfl rfl, haddsub true ▸ exec_sub rfl rfl⟩
    · exact ⟨_, exec_mul rfl rfl, hmul ▸ exec_mul rfl rfl⟩
    · exact ⟨_, exec_ln rfl, eq_of_upperHalf_eq (lnWord_clearLow s.params) ha ▸ exec_ln rfl⟩
  · simp only [List.mem_cons, List.not_mem_nil, or_false] at hi
    obtain rfl | rfl := hi
    · refine ⟨0x3F800000#32, 0x3F808000#32, by decide, ?_⟩
      rw [answerOnY_f2bf, answerOnY_f2bf]
      decide
    · refine ⟨0#32, 1#32, by decide, ?_⟩
      rw [answerOnY_i2bf, answerOnY_i2bf, intToBf16_eq_default, intToBf16_eq_default s.params 1#32]
      decide

/-! ## Results are canonical (R22) -/

theorem clearLow_low (a : Word) : (clearLow a).extractLsb' 0 16 = 0#16 := by
  rw [lowHalf_eq_zero_iff, clearLow_toNat, Nat.mul_mod_left]

theorem fp32ToBf16_low (a : Word) : (fp32ToBf16 a).extractLsb' 0 16 = 0#16 := by
  rw [fp32ToBf16]
  split
  · exact clearLow_low _
  · exact clearLow_low _

theorem intToBf16_low (p : Params) (a : Word) : (intToBf16 p a).extractLsb' 0 16 = 0#16 := by
  rw [intToBf16]
  split
  · decide
  · exact pack_low ..

theorem lnWord_low {p : Params} {a : Word} (h : lnNormal a = true ∨ upperHalf a = 0#16) :
    (lnWord p a).extractLsb' 0 16 = 0#16 := by
  obtain h | h := h
  · rw [lnWord_of_normal h]
    exact addsub_low ..
  · rw [lnWord_of_zero h]
    cases p.lnZero <;> decide

/-- Settles O13: every word but BF.BF2I's is packed or masked, and BF.LN's is a sum or one of two fixed words. -/
theorem bf16ResultsAreCanonical : Obligations.Bf16ResultsAreCanonical := by
  unfold Obligations.Bf16ResultsAreCanonical
  intro i s t y h hy hi hln
  cases i with
  | decode =>
    obtain ⟨a, -, rfl⟩ := answerFromA_next.1 h
    cases hy
  | f2bf =>
    obtain ⟨a, -, rfl⟩ := answerFromA_next.1 h
    cases hy
    exact fp32ToBf16_low a
  | bf2f =>
    obtain ⟨a, -, rfl⟩ := answerFromA_next.1 h
    cases hy
    exact clearLow_low a
  | i2bf =>
    obtain ⟨a, -, rfl⟩ := answerFromA_next.1 h
    cases hy
    exact intToBf16_low s.params a
  | bf2i => exact absurd rfl hi
  | ln =>
    obtain ⟨a, ha, rfl⟩ := answerFromA_next.1 h
    cases hy
    exact lnWord_low (hln rfl a ha)
  | add | sub =>
    obtain ⟨a, -, b, -, rfl⟩ := answerFromAB_next.1 h
    cases hy
    exact addsub_low ..
  | mul =>
    obtain ⟨a, -, b, -, rfl⟩ := answerFromAB_next.1 h
    cases hy
    exact pack_low ..
  | encode =>
    obtain ⟨sg, -, e, -, m, -, rfl⟩ := answerFromTriple_next.1 h
    cases hy
    exact pack_low ..

/-! ## The sign of a second operand (R69, R71) -/

theorem opnd_xor_sign (b : Word) :
    opnd (b ^^^ 0x80000000#32) = { s := (opnd b).s ^^^ 1#1, e := (opnd b).e, m := (opnd b).m } := by
  simp [opnd, fieldsOf, isZeroBF, BitVec.extractLsb'_xor]

theorem signed_xor_one (s : BitVec 1) (m : Nat) : signed (s ^^^ 1#1) m = -signed s m := by
  obtain rfl | rfl := BitVec.eq_zero_or_eq_one s
  · simp [signed]
  · simp [signed]

/-- The sign is applied after the alignment, so negating the second operand and flipping its sign bit are the same. -/
theorem addsub_xor_sign (p : Params) (a b : Word) : addsub p a (b ^^^ 0x80000000#32) false = addsub p a b true := by
  have halign : align (opnd a) (opnd (b ^^^ 0x80000000#32)) = align (opnd a) (opnd b) := by
    rw [opnd_xor_sign, align, align]
  have hsign : (opnd (b ^^^ 0x80000000#32)).s = (opnd b).s ^^^ 1#1 := by rw [opnd_xor_sign]
  have hsum : signedSum (opnd a) (opnd (b ^^^ 0x80000000#32)) false = signedSum (opnd a) (opnd b) true := by
    rw [signedSum, signedSum, halign, hsign, signed_xor_one, if_neg (by decide), if_pos rfl]
  rw [addsub, addsub, halign, hsum]

/-- Settles O28: the two datapaths form the same sum at the same exponent. -/
theorem subIsAddOfTheFlippedSign : Obligations.SubIsAddOfTheFlippedSign := by
  unfold Obligations.SubIsAddOfTheFlippedSign
  intro s a b
  exact ⟨_, answerOnY_sub s a b, by rw [answerOnY_add, addsub_xor_sign]⟩

/-- Settles O32: the sum of 2^128 and itself has exponent 129, whose biased bits 0x100 reach bit 31 alone. -/
theorem overflowingAddCanLookLikeNegativeZero : Obligations.OverflowingAddCanLookLikeNegativeZero := by
  unfold Obligations.OverflowingAddCanLookLikeNegativeZero
  intro s hwrap
  simp only [answerOnY_add, addsub, hwrap]
  decide

/-! ## The multiplier's ranges (R80, R82) -/

theorem opnd_m_eq_zero_iff (w : Word) : (opnd w).m = 0 ↔ isZeroBF w = true := by
  refine ⟨fun h => ?_, opnd_m_of_zero⟩
  by_contra hz
  rw [opnd_m_of_not_zero hz, significand_toNat] at h
  omega

/-- The magnitude at pack is 0 for a zero product alone; a carry leaves at most 0xFE. -/
theorem normalizeProduct_opnd_mag (a b : Word) :
    ((opnd a).m * (opnd b).m = 0 ∧ (normalizeProduct (opnd a) (opnd b)).mag = 0 ∧
      (normalizeProduct (opnd a) (opnd b)).e = -127) ∨
    ((opnd a).m * (opnd b).m ≠ 0 ∧ 0x80 ≤ (normalizeProduct (opnd a) (opnd b)).mag ∧
      (normalizeProduct (opnd a) (opnd b)).mag ≤ 0xFF ∧
      (0x8000 ≤ (opnd a).m * (opnd b).m → (normalizeProduct (opnd a) (opnd b)).mag ≤ 0xFE)) := by
  obtain h0 | ⟨hlo, hhi⟩ := opnd_mul_range a b
  · rw [normalizeProduct_of_zero h0]
    exact .inl ⟨h0, rfl, rfl⟩
  obtain hsmall | hcarry := Nat.lt_or_ge ((opnd a).m * (opnd b).m) 0x8000
  · rw [normalizeProduct_of_no_carry (by omega) hsmall]
    dsimp only
    omega
  · rw [normalizeProduct_of_carry hcarry]
    dsimp only
    omega

/-- Settles O35: the product's range gives every other one; it is 0 exactly when a significand is, and so an operand. -/
theorem multiplierInternalRanges : Obligations.MultiplierInternalRanges := by
  unfold Obligations.MultiplierInternalRanges
  intro a b x z n
  have hprod : x.m * z.m = 0 ∨ (0x4000 ≤ x.m * z.m ∧ x.m * z.m ≤ 0xFE01) := opnd_mul_range a b
  have hzero : x.m * z.m = 0 ↔ isZeroBF a = true ∨ isZeroBF b = true := by
    rw [Nat.mul_eq_zero, opnd_m_eq_zero_iff, opnd_m_eq_zero_iff]
  have hraw : (rawProduct x z).mag = x.m * z.m / 0x80 := by rw [rawProduct_eq]
  have he : -254 ≤ n.e ∧ n.e ≤ 257 := normalizeProduct_opnd_e_range a b
  have hn : (x.m * z.m = 0 ∧ n.mag = 0 ∧ n.e = -127) ∨
      (x.m * z.m ≠ 0 ∧ 0x80 ≤ n.mag ∧ n.mag ≤ 0xFF ∧ (0x8000 ≤ x.m * z.m → n.mag ≤ 0xFE)) :=
    normalizeProduct_opnd_mag a b
  rw [hraw, ← hzero]
  exact ⟨opnd_e_range a, opnd_e_range b, hprod, by omega, by omega, by omega, by omega, by omega⟩

/-! ## BF.LN outside its domain (R92) -/

/-- Settles O39: BF.LN has a word for every operand. -/
theorem lnOutsideItsDomainStillAnswers : Obligations.LnOutsideItsDomainStillAnswers := by
  unfold Obligations.LnOutsideItsDomainStillAnswers
  intro s a ha _ _
  exact ⟨_, exec_ln ha⟩

end Sys2Proof.Machine
end

section
/-! The integer conversions by value (40_codec.md §3): BF.BF2I rounds the number its operand stands for, and BF.I2BF treats
sign and magnitude apart and keeps the magnitude's eight leading bits. -/

namespace Sys2Proof.Machine

/-! ## BF.BF2I rounds its operand's value (R62, D13, D14) -/

section Floor
variable (m : Nat) {k : Int}

theorem mul_zpow_of_nonneg (h : 0 ≤ k) : (m : ℚ) * 2 ^ k = ((m <<< k.toNat : Nat) : ℚ) := by
  lift k to ℕ using h
  rw [Int.toNat_natCast, Nat.shiftLeft_eq, zpow_natCast, Nat.cast_mul, Nat.cast_pow, Nat.cast_ofNat]

theorem mul_zpow_of_neg (h : k < 0) : (m : ℚ) * 2 ^ k = ((m : ℤ) : ℚ) / ((2 ^ (-k).toNat : Nat) : ℚ) := by
  obtain ⟨j, rfl⟩ : ∃ j : Nat, k = -(j : Int) := ⟨(-k).toNat, by omega⟩
  rw [neg_neg, Int.toNat_natCast, zpow_neg, zpow_natCast, Int.cast_natCast, Nat.cast_pow, Nat.cast_ofNat, div_eq_mul_inv]

end Floor

section Value
variable (a : Word)

/-- A pattern that is no zero stands for its significand, shifted by R62's net shift. -/
theorem bf16Mag_of_not_zero {a : Word} (h : ¬ isZeroBF a = true) :
    bf16Mag a = ((significand (fieldsOf a).f).toNat : ℚ) * 2 ^ netShift a := by
  have hexp : ((fieldsOf a).e.toNat : ℤ) - 127 = netShift a + 7 := by rw [netShift, unbias]; ring
  rw [bf16Mag, if_neg h, hexp, zpow_add₀ two_ne_zero, significand_toNat]
  push_cast
  ring

theorem bf16Mag_of_zero {a : Word} (h : isZeroBF a = true) : bf16Mag a = 0 := if_pos h

theorem bf16Mag_nonneg : 0 ≤ bf16Mag a := by
  unfold bf16Mag
  split
  · exact le_rfl
  · positivity

theorem shiftedMag_of_zero {a : Word} (h : isZeroBF a = true) : shiftedMag a = 0 := by
  rw [isZeroBF_iff] at h
  exact shiftedMag_of_lt_one (by omega)

/-- R62's shift rounds the magnitude down. -/
theorem floor_bf16Mag : ⌊bf16Mag a⌋ = (shiftedMag a : Int) := by
  by_cases hz : isZeroBF a = true
  · rw [bf16Mag_of_zero hz, shiftedMag_of_zero hz, Int.floor_zero, Nat.cast_zero]
  rw [bf16Mag_of_not_zero hz, shiftedMag]
  split
  next hk => rw [mul_zpow_of_nonneg _ hk, Int.floor_natCast]
  next hk =>
    rw [mul_zpow_of_neg _ (not_le.1 hk), Rat.floor_intCast_div_natCast, Nat.shiftRight_eq_div_pow, Int.natCast_div]

/-- With the sign before the shift the negated magnitude is rounded down (D14). -/
theorem floor_neg_bf16Mag : ⌊-bf16Mag a⌋ = flooredNeg a := by
  rw [flooredNeg]
  by_cases hz : isZeroBF a = true
  · rw [if_pos hz, bf16Mag_of_zero hz, neg_zero, Int.floor_zero]
  rw [if_neg hz, bf16Mag_of_not_zero hz]
  split
  next hk => rw [mul_zpow_of_nonneg _ hk, ← Int.cast_natCast, ← Int.cast_neg, Int.floor_intCast]
  next hk =>
    rw [mul_zpow_of_neg _ (not_le.1 hk), ← neg_div, ← Int.cast_neg, Rat.floor_intCast_div_natCast,
      Int.shiftRight_eq_div_pow]

theorem bf16Value_of_positive {a : Word} (h : (fieldsOf a).s = 0#1) : bf16Value a = bf16Mag a := by
  rw [bf16Value, h, if_neg (by decide)]

theorem bf16Value_of_negative {a : Word} (h : (fieldsOf a).s = 1#1) : bf16Value a = -bf16Mag a := if_pos h

theorem isZeroBF_of_upperHalf {a : Word} (h : upperHalf a = 0#16) : isZeroBF a = true := by
  rw [← BitVec.toNat_inj, upperHalf_toNat, BitVec.toNat_ofNat] at h
  rw [isZeroBF_iff]
  omega

/-- A zero of positive sign is the one operand with a test of its own. -/
theorem bf16Value_of_upperHalf {a : Word} (h : upperHalf a = 0#16) : bf16Value a = 0 := by
  rw [bf16Value, bf16Mag_of_zero (isZeroBF_of_upperHalf h), neg_zero, ite_self]

end Value

/-- The exponent field from which BF.BF2I saturates (D13). -/
def satThreshold : SatTest → Nat
  | .netShift => 158
  | .unbiased => 151

theorem saturates_iff (test : SatTest) (a : Word) :
    saturates test a = true ↔ satThreshold test ≤ a.toNat / 2 ^ 23 % 2 ^ 8 := by
  cases test with
  | netShift => exact saturates_netShift_iff a
  | unbiased =>
    rw [saturates, decide_eq_true_eq, unbias_fieldsOf, satThreshold]
    omega

section Round
variable {p : Params} {a : Word}

theorem bf16ToInt_of_threshold_le (h : satThreshold p.satTest ≤ a.toNat / 2 ^ 23 % 2 ^ 8) :
    bf16ToInt p a = intSat := by
  have hz : upperHalf a ≠ 0#16 := by
    intro hz
    have he := (isZeroBF_iff a).1 (isZeroBF_of_upperHalf hz)
    have : 0 < satThreshold p.satTest := by cases p.satTest <;> decide
    omega
  exact bf16ToInt_of_saturates hz ((saturates_iff _ _).2 h)

variable (hsat : ¬ saturates p.satTest a = true)
include hsat

/-- Below saturation a positive operand is rounded down. -/
theorem bf16ToInt_of_positive (hs : (fieldsOf a).s = 0#1) : bf16ToInt p a = u32 ⌊bf16Value a⌋ := by
  by_cases hz : upperHalf a = 0#16
  · rw [bf16ToInt_of_zero hz, bf16Value_of_upperHalf hz, Int.floor_zero]
    rfl
  · rw [bf16ToInt, if_neg hz, if_neg hsat, if_pos hs, bf16Value_of_positive hs, floor_bf16Mag]

/-- Below saturation `floor` rounds down. -/
theorem bf16ToInt_of_floor (hneg : p.negRound = .floor) : bf16ToInt p a = u32 ⌊bf16Value a⌋ := by
  obtain hs | hs := BitVec.eq_zero_or_eq_one (fieldsOf a).s
  · exact bf16ToInt_of_positive hsat hs
  · have hz : upperHalf a ≠ 0#16 := by
      intro hz
      rw [← BitVec.toNat_inj, fieldsOf_s_toNat, BitVec.toNat_ofNat] at hs
      rw [← BitVec.toNat_inj, upperHalf_toNat, BitVec.toNat_ofNat] at hz
      omega
    rw [bf16ToInt, if_neg hz, if_neg hsat, if_neg (by rw [hs]; decide), hneg, bf16Value_of_negative hs,
      floor_neg_bf16Mag]

/-- Below saturation `toward_zero` rounds the magnitude down. -/
theorem bf16ToInt_of_towardZero_value (hneg : p.negRound = .towardZero) :
    bf16ToInt p a = u32 (if bf16Value a < 0 then -⌊-bf16Value a⌋ else ⌊bf16Value a⌋) := by
  obtain hs | hs := BitVec.eq_zero_or_eq_one (fieldsOf a).s
  · rw [if_neg (by rw [bf16Value_of_positive hs]; exact not_lt.2 (bf16Mag_nonneg a)), bf16ToInt_of_positive hsat hs]
  · by_cases hz : upperHalf a = 0#16
    · rw [bf16ToInt_of_zero hz, bf16Value_of_upperHalf hz, if_neg (lt_irrefl 0), Int.floor_zero]
      rfl
    · rw [bf16ToInt_of_towardZero hz hsat hneg, signed, if_pos hs, bf16Value_of_negative hs, neg_neg, floor_bf16Mag]
      split
      next => rfl
      next hnonneg =>
        have hzero : bf16Mag a = 0 := le_antisymm (by linarith) (bf16Mag_nonneg a)
        rw [← floor_bf16Mag, hzero, neg_zero, Int.floor_zero, neg_zero]

/-- An integer is not rounded, so BF.BF2I gives it back at both values of `BF2I_NEG_ROUND`. -/
theorem bf16ToInt_of_value_eq_int {k : Int} (hk : bf16Value a = k) : bf16ToInt p a = u32 k := by
  cases hneg : p.negRound with
  | floor => rw [bf16ToInt_of_floor hsat hneg, hk, Int.floor_intCast]
  | towardZero =>
    rw [bf16ToInt_of_towardZero_value hsat hneg, hk, ← Int.cast_neg, Int.floor_intCast, Int.floor_intCast, neg_neg,
      ite_self]

end Round

/-- Settles O22: saturation by the exponent field, and below it the two roundings of the value. -/
theorem bf2iRoundsTheValueAtEveryParameter : Obligations.Bf2iRoundsTheValueAtEveryParameter := by
  unfold Obligations.Bf2iRoundsTheValueAtEveryParameter
  intro s a ha
  refine ⟨_, exec_bf2i ha, ?_⟩
  intro e threshold
  have hthreshold : threshold = satThreshold s.params.satTest := by
    cases h : s.params.satTest <;> simp [threshold, h, satThreshold]
  have hnsat (hlt : e < threshold) : ¬ saturates s.params.satTest a = true := by
    rw [saturates_iff, ← hthreshold]
    exact not_le.2 hlt
  refine ⟨fun hle => ?_, fun hlt hneg => ?_, fun hlt hneg => ?_⟩
  · exact bf16ToInt_of_threshold_le (hthreshold ▸ hle)
  · exact bf16ToInt_of_floor (hnsat hlt) hneg
  · exact bf16ToInt_of_towardZero_value (hnsat hlt) hneg

/-! ## BF.I2BF by sign and magnitude (R60, R66) -/

theorem pack_one_eq_or (wrap : PackWrap) (e : Int) (m : Nat) :
    pack wrap 1#1 e m = pack wrap 0#1 e m ||| 0x80000000#32 := by
  have hzero : (0#1).setWidth 32 <<< 31 = 0#32 := by decide
  have hone : (1#1).setWidth 32 <<< 31 = 0x80000000#32 := by decide
  rw [pack, pack, hzero, hone, BitVec.zero_or, BitVec.or_assoc, BitVec.or_comm]

section I2bf
variable (p : Params) {a : Word}

theorem intToBf16_of_ne_zero (h : s32 a ≠ 0) :
    intToBf16 p a =
      pack p.packWrap (intSign (s32 a)) (normalizeInt (s32 a).natAbs).e (normalizeInt (s32 a).natAbs).mag :=
  if_neg h

/-- The exponent is the place of the magnitude's leading bit. -/
theorem normalizeInt_s32_e (h : s32 a ≠ 0) :
    (normalizeInt (s32 a).natAbs).e = Nat.log2 (s32 a).natAbs ∧ Nat.log2 (s32 a).natAbs < 32 := by
  have hpos : 0 < (s32 a).natAbs := Int.natAbs_pos.2 h
  rw [normalizeInt_eq hpos (natAbs_s32_lt a)]
  exact ⟨rfl, (Nat.log2_lt hpos.ne').2 (natAbs_s32_lt a)⟩

theorem s32_neg_of_pos (h : 0 < s32 a) : s32 (-a) = -s32 a := by
  refine BitVec.toInt_neg_of_ne_intMin ?_
  rintro rfl
  exact absurd h (by decide)

end I2bf

/-- Settles O25: a number and its negation have one magnitude, and the sign bit stands alone in bit 31. -/
theorem i2bfOfNegationSetsTheSign : Obligations.I2bfOfNegationSetsTheSign := by
  unfold Obligations.I2bfOfNegationSetsTheSign
  refine ⟨fun s a b ha => ⟨_, answerOnY_i2bf s a b, ?_, ?_⟩, fun s b => ?_⟩
  · obtain ⟨he, hlog⟩ := normalizeInt_s32_e ha.ne'
    rw [intToBf16_of_ne_zero _ ha.ne', pack_sign_of_inRange _ _ _ (by omega) (by omega), intSign_getLsbD_zero,
      decide_eq_false (by omega)]
  · have hneg := s32_neg_of_pos ha
    have hsign : intSign (-s32 a) = 1#1 := if_pos (by omega)
    have hsign' : intSign (s32 a) = 0#1 := if_neg (by omega)
    rw [answerOnY_i2bf, intToBf16_of_ne_zero _ ha.ne', intToBf16_of_ne_zero _ (by omega), hneg, Int.natAbs_neg, hsign,
      hsign', pack_one_eq_or]
  · rw [answerOnY_i2bf, intToBf16_eq_default]
    decide

/-- A magnitude with all but its eight leading bits cleared. -/
def keptBits (n : Nat) : Nat := n - n % 2 ^ (Nat.log2 n - 7)

theorem keptBits_eq_mul (n : Nat) : keptBits n = n / 2 ^ (Nat.log2 n - 7) * 2 ^ (Nat.log2 n - 7) := by
  have := Nat.div_add_mod' n (2 ^ (Nat.log2 n - 7))
  rw [keptBits]
  omega

/-- Normalizing keeps the value of the eight leading bits. -/
theorem normalizeInt_value {n : Nat} (h0 : 0 < n) (hn : n < 2 ^ 32) :
    ((normalizeInt n).mag : ℚ) / 128 * 2 ^ (normalizeInt n).e = (keptBits n : ℚ) := by
  obtain hlt | hle := Nat.lt_or_ge n 0x100
  · have hlog := (normalizeInt_of_lt h0 hlt).1
    rw [normalizeInt_value_of_lt h0 hlt, keptBits, Nat.sub_eq_zero_of_le hlog, pow_zero, Nat.mod_one, Nat.sub_zero]
  · obtain ⟨hlog, hnorm⟩ := normalizeInt_of_le hle hn
    have hpow : (2 : ℚ) ^ Nat.log2 n = 128 * 2 ^ (Nat.log2 n - 7) := by
      rw [show (128 : ℚ) = 2 ^ 7 by norm_num, ← pow_add, Nat.add_sub_cancel' hlog]
    rw [hnorm, keptBits_eq_mul]
    dsimp only
    rw [zpow_natCast, hpow]
    push_cast
    ring

theorem normalizeInt_mag_range {n : Nat} (h0 : 0 < n) (hn : n < 2 ^ 32) :
    0x80 ≤ (normalizeInt n).mag ∧ (normalizeInt n).mag < 0x100 := by
  obtain hlt | hle := Nat.lt_or_ge n 0x100
  · exact (normalizeInt_range_of_lt h0 hlt).1
  · have hdone : normalizeInt n = shiftDown 24 { mag := n, e := 7 } :=
      congrArg (shiftDown 24) (shiftUp_of_le 7 (le_trans (by decide) hle))
    obtain ⟨hlo, hhi, -⟩ := shiftDown_spec { mag := n, e := 7 } (le_trans (by decide) hle) hn
    rw [hdone]
    exact ⟨hlo, hhi⟩

theorem bf16Value_intToBf16_eq_kept (p : Params) {a : Word} (h : s32 a ≠ 0) :
    bf16Value (intToBf16 p a) =
      ((if s32 a < 0 then -(keptBits (s32 a).natAbs : Int) else (keptBits (s32 a).natAbs : Int) : Int) : ℚ) := by
  have hpos : 0 < (s32 a).natAbs := Int.natAbs_pos.2 h
  obtain ⟨he, hlog⟩ := normalizeInt_s32_e h
  obtain ⟨hlo, hhi⟩ := normalizeInt_mag_range hpos (natAbs_s32_lt a)
  rw [intToBf16_of_ne_zero p h, bf16Value_pack _ _ (by omega) (by omega) hlo hhi,
    normalizeInt_value hpos (natAbs_s32_lt a)]
  obtain hneg | hnonneg := lt_or_ge (s32 a) 0
  · rw [intSign, if_pos hneg, if_pos rfl, if_pos hneg, Int.cast_neg, Int.cast_natCast]
  · rw [intSign, if_neg hnonneg.not_gt, if_neg (by decide), if_neg hnonneg.not_gt, Int.cast_natCast]

/-- A magnitude below 2^31 stays below saturation. -/
theorem not_saturates_intToBf16 (p : Params) {a : Word} (h0 : s32 a ≠ 0) (h : (s32 a).natAbs < 2 ^ 31) :
    ¬ saturates .netShift (intToBf16 p a) = true := by
  have hlog : Nat.log2 (s32 a).natAbs < 31 := (Nat.log2_lt (Int.natAbs_pos.2 h0).ne').2 h
  obtain ⟨he, -⟩ := normalizeInt_s32_e h0
  rw [saturates_netShift_iff, ← fieldsOf_e_toNat, intToBf16_of_ne_zero p h0]
  have hfield := pack_exponent_of_inRange p.packWrap (intSign (s32 a)) (normalizeInt (s32 a).natAbs).mag
    (e := (normalizeInt (s32 a).natAbs).e) (by omega) (by omega)
  rw [fieldsOf, hfield]
  omega

/-- Settles O26: BF.I2BF's word stands for the integer of the eight leading bits, which BF.BF2I gives back; the one
magnitude 2^31 saturates. -/
theorem bf2iOfI2bfKeepsEightLeadingBits : Obligations.Bf2iOfI2bfKeepsEightLeadingBits := by
  unfold Obligations.Bf2iOfI2bfKeepsEightLeadingBits
  intro s a b hsat
  refine ⟨_, answerOnY_i2bf s a b, ?_⟩
  intro n kept
  rw [answerOnY_bf2i]
  congr 1
  have hlo : -2 ^ 31 ≤ s32 a := BitVec.le_toInt a
  have hhi : s32 a < 2 ^ 31 := BitVec.toInt_lt
  obtain h0 | h0 := eq_or_ne (s32 a) 0
  · have hkept : kept = 0 := by simp [kept, n, h0]
    rw [if_neg (by omega), if_neg (by omega), hkept, intToBf16, if_pos h0]
    exact bf16ToInt_of_zero (by decide)
  obtain hmin | hmin := eq_or_ne (s32 a) (-2 ^ 31)
  · have ha : a = 0x80000000#32 := BitVec.eq_of_toInt_eq hmin
    rw [if_pos hmin, intToBf16_eq_default, ha]
    exact bf16ToInt_of_saturates (by decide) (by rw [hsat]; decide)
  · rw [if_neg hmin]
    have hnsat := not_saturates_intToBf16 s.params h0 (by omega)
    exact bf16ToInt_of_value_eq_int (by rwa [hsat]) (bf16Value_intToBf16_eq_kept s.params h0)

end Sys2Proof.Machine
end

section
/-! BF.F2BF's integer form against the fp32 addition it replaces (R57, R58): the correction is half a unit of the upper
half, so the exact sum is the operand plus 0x8000 in units of its last place, and rounding it to an fp32 pattern changes
nothing above the low half. The reading of fp32 is IEEE-754's (log entry 15). -/

namespace Sys2Proof.Machine

/-! ## Fields of an fp32 pattern -/

section Fields
variable (w : Word)

theorem fp32Exp_toNat : (fp32Exp w).toNat = w.toNat / 2 ^ 23 % 2 ^ 8 := fieldsOf_e_toNat w

theorem fp32Frac_toNat : (fp32Frac w).toNat = w.toNat % 2 ^ 23 := by
  simp [fp32Frac]

/-- A mask of the bits from `n` up. -/
theorem and_allOnes_shiftLeft_toNat (n : Nat) :
    (w &&& BitVec.allOnes 32 <<< n).toNat = w.toNat / 2 ^ n * 2 ^ n := by
  have hlt := w.isLt
  have hle : w.toNat / 2 ^ n * 2 ^ n ≤ w.toNat := Nat.div_mul_le_self ..
  rw [← BitVec.shiftLeft_ushiftRight, BitVec.toNat_shiftLeft, BitVec.toNat_ushiftRight, Nat.shiftLeft_eq,
    Nat.shiftRight_eq_div_pow, Nat.mod_eq_of_lt (by omega)]

theorem and_signMask_toNat : (w &&& 0x80000000#32).toNat = w.toNat / 2 ^ 31 * 2 ^ 31 :=
  and_allOnes_shiftLeft_toNat w 31

theorem and_exponentMask_toNat : (w &&& 0xFF800000#32).toNat = w.toNat / 2 ^ 23 * 2 ^ 23 :=
  and_allOnes_shiftLeft_toNat w 23

variable {w}

theorem fp32Mag_of_exp_zero (h : w.toNat / 2 ^ 23 % 2 ^ 8 = 0) : fp32Mag w = w.toNat % 2 ^ 23 := by
  have hexp : fp32Exp w = 0#8 := BitVec.eq_of_toNat_eq (by rw [fp32Exp_toNat, h]; rfl)
  rw [fp32Mag, if_pos hexp, fp32Frac_toNat]

theorem fp32Mag_of_exp_pos (h : 0 < w.toNat / 2 ^ 23 % 2 ^ 8) :
    fp32Mag w = (2 ^ 23 + w.toNat % 2 ^ 23) * 2 ^ (w.toNat / 2 ^ 23 % 2 ^ 8 - 1) := by
  have hexp : fp32Exp w ≠ 0#8 := by
    intro hexp
    rw [← fp32Exp_toNat, hexp] at h
    exact absurd h (by decide)
  have hbit : (0x800000 : Nat) = 2 ^ 23 := by decide
  rw [fp32Mag, if_neg hexp, fp32Frac_toNat, fp32Exp_toNat, Nat.shiftLeft_eq, hbit]

end Fields

/-- A sign in bit 31 and a pattern below it. -/
theorem or_pattern_toNat {x : Word} {b n : Nat} (hx : x.toNat = b * 2 ^ 31) (hn : n < 2 ^ 31) :
    (x ||| BitVec.ofNat 32 n).toNat = b * 2 ^ 31 + n := by
  rw [BitVec.toNat_or, hx, BitVec.toNat_ofNat, Nat.mod_eq_of_lt (by omega), Nat.mul_comm,
    Nat.two_pow_add_eq_or_of_lt hn]

/-! ## Rounding to an fp32 pattern -/

section Round
variable {m k : Nat}

theorem log2_mul_two_pow (hm : 0 < m) (k : Nat) : Nat.log2 (m * 2 ^ k) = Nat.log2 m + k := by
  have hlog := log2_div_two_pow (m * 2 ^ k) k
  have hle : k ≤ Nat.log2 (m * 2 ^ k) :=
    (Nat.le_log2 (by positivity)).2 (Nat.le_mul_of_pos_left _ hm)
  rw [Nat.mul_div_cancel _ (Nat.two_pow_pos k)] at hlog
  omega

theorem roundShift_mul_two_pow (m k : Nat) : roundShift (m * 2 ^ k) k = m := by
  have hpos := Nat.two_pow_pos k
  rw [roundShift, if_pos (by rw [Nat.mul_mod_left]; omega), Nat.shiftRight_eq_div_pow, Nat.mul_div_cancel _ hpos]

/-- Rounding goes to one of the two neighbours. -/
theorem roundShift_bounds (n k : Nat) : n / 2 ^ k ≤ roundShift n k ∧ roundShift n k ≤ n / 2 ^ k + 1 := by
  rw [roundShift, Nat.shiftRight_eq_div_pow]
  split
  · omega
  split <;> omega

theorem fp32MagBits_le (n : Nat) : fp32MagBits n ≤ 0x7F800000 := by
  rw [fp32MagBits]
  split
  · omega
  · exact min_le_right ..

/-- The significand's leading bit carries into the exponent field, so field and fraction are one sum. -/
theorem fp32MagBits_eq (hlo : 2 ^ 23 ≤ m) (hhi : m < 2 ^ 25) (k : Nat) :
    fp32MagBits (m * 2 ^ k) =
      min ((Nat.log2 m - 23 + k) * 2 ^ 23 + roundShift (m * 2 ^ k) (Nat.log2 m - 23 + k)) 0x7F800000 := by
  have hbig : ¬ m * 2 ^ k < 0x800000 := not_lt.2 (le_trans hlo (Nat.le_mul_of_pos_right _ (Nat.two_pow_pos k)))
  have hlog : 23 ≤ Nat.log2 m := (Nat.le_log2 (by omega)).2 hlo
  rw [fp32MagBits, if_neg hbig, log2_mul_two_pow (by omega) k, Nat.shiftLeft_eq, Nat.sub_add_comm hlog]

/-- A magnitude of 24 significant bits is not rounded. -/
theorem fp32MagBits_of_exact (hlo : 2 ^ 23 ≤ m) (hhi : m < 2 ^ 24) (k : Nat) :
    fp32MagBits (m * 2 ^ k) = min (k * 2 ^ 23 + m) 0x7F800000 := by
  have hlog : Nat.log2 m = 23 := (Nat.log2_eq_iff (by omega)).2 ⟨hlo, hhi⟩
  rw [fp32MagBits_eq hlo (by omega), hlog, Nat.sub_self, Nat.zero_add, roundShift_mul_two_pow]

/-- One of 25 bits loses its last one. -/
theorem fp32MagBits_of_one_more_bit (hlo : 2 ^ 24 ≤ m) (hhi : m < 2 ^ 25) (k : Nat) :
    ∃ r, m / 2 ≤ r ∧ r ≤ m / 2 + 1 ∧ fp32MagBits (m * 2 ^ k) = min ((k + 1) * 2 ^ 23 + r) 0x7F800000 := by
  have hlog : Nat.log2 m = 24 := (Nat.log2_eq_iff (by omega)).2 ⟨hlo, hhi⟩
  have hdiv : m * 2 ^ k / 2 ^ (k + 1) = m / 2 := by
    rw [Nat.pow_succ', Nat.mul_div_mul_right _ _ (Nat.two_pow_pos k)]
  obtain ⟨hr, hr'⟩ := roundShift_bounds (m * 2 ^ k) (k + 1)
  rw [hdiv] at hr hr'
  refine ⟨roundShift (m * 2 ^ k) (k + 1), hr, hr', ?_⟩
  rw [fp32MagBits_eq (by omega) hhi, hlog, Nat.add_comm k 1]

end Round

/-! ## The correction (R57) -/

section Normal
variable {a : Word}

/-- The correction has the operand's sign, and one 256th of its leading power of two as magnitude. -/
theorem correction_value (hlo : 1 ≤ a.toNat / 2 ^ 23 % 2 ^ 8) :
    (correction a).toNat / 2 ^ 31 = a.toNat / 2 ^ 31 ∧
      fp32Mag (correction a) = 2 ^ 15 * 2 ^ (a.toNat / 2 ^ 23 % 2 ^ 8 - 1) := by
  set e := a.toNat / 2 ^ 23 % 2 ^ 8 with he
  have hpower := and_exponentMask_toNat a
  have hmag : fp32Mag (a &&& 0xFF800000#32) = 2 ^ 15 * 2 ^ (e - 1) * 2 ^ 8 := by
    rw [fp32Mag_of_exp_pos (by omega), hpower, Nat.mul_mod_left, Nat.mul_div_cancel _ (Nat.two_pow_pos 23), ← he]
    ring
  have hnat : (correction a).toNat = a.toNat / 2 ^ 31 * 2 ^ 31 + fp32MagBits (2 ^ 15 * 2 ^ (e - 1)) := by
    rw [correction, fp32Div256, hmag, roundShift_mul_two_pow]
    refine or_pattern_toNat ?_ (lt_of_le_of_lt (fp32MagBits_le _) (by decide))
    rw [and_signMask_toNat, hpower]
    omega
  have ha := a.isLt
  obtain hsub | hnormal := Nat.lt_or_ge e 9
  · have hsmall : 2 ^ 15 * 2 ^ (e - 1) < 0x800000 := by
      rw [← Nat.pow_add]
      exact (Nat.pow_lt_pow_right (by decide) (by omega : 15 + (e - 1) < 23)).trans_eq (by decide)
    rw [fp32MagBits, if_pos hsmall] at hnat
    refine ⟨by omega, ?_⟩
    rw [fp32Mag_of_exp_zero (by omega)]
    omega
  · have hexact : 2 ^ 15 * 2 ^ (e - 1) = 2 ^ 23 * 2 ^ (e - 9) := by
      rw [← Nat.pow_add, ← Nat.pow_add]
      congr 1
      omega
    rw [hexact, fp32MagBits_of_exact le_rfl (by decide)] at hnat
    refine ⟨by omega, ?_⟩
    have hfield : (correction a).toNat / 2 ^ 23 % 2 ^ 8 - 1 = e - 9 := by omega
    rw [fp32Mag_of_exp_pos (by omega), hfield, hexact, show (correction a).toNat % 2 ^ 23 = 0 by omega, Nat.add_zero]

/-! ## The sum -/

theorem signed_add (s : BitVec 1) (m n : Nat) : signed s m + signed s n = signed s (m + n) := by
  obtain rfl | rfl := BitVec.eq_zero_or_eq_one s
  · simp [signed]
  · simp [signed]; ring

/-- Patterns of one sign add their magnitudes, and the sum keeps the sign. -/
theorem fp32Add_toNat_of_same_sign {b : Word} (hs : b.toNat / 2 ^ 31 = a.toNat / 2 ^ 31)
    (hpos : 0 < fp32Mag a + fp32Mag b) :
    (fp32Add a b).toNat = a.toNat / 2 ^ 31 * 2 ^ 31 + fp32MagBits (fp32Mag a + fp32Mag b) := by
  have hsign : (fieldsOf b).s = (fieldsOf a).s := BitVec.eq_of_toNat_eq (by rw [fieldsOf_s_toNat, fieldsOf_s_toNat, hs])
  have hvalue : fp32Value a + fp32Value b = signed (fieldsOf a).s (fp32Mag a + fp32Mag b) := by
    rw [← signed_add, ← hsign]
    exact congrArg₂ (· + ·) (by rw [hsign]; rfl) rfl
  have hne : fp32Value a + fp32Value b ≠ 0 := by
    rw [hvalue, ← Int.natAbs_pos, natAbs_signed]
    exact hpos
  rw [fp32Add, fp32Round, if_neg hne, hvalue, natAbs_signed, intSign_signed _ hpos]
  refine or_pattern_toNat ?_ (lt_of_le_of_lt (fp32MagBits_le _) (by decide))
  have hlt := (fieldsOf a).s.isLt
  rw [BitVec.toNat_shiftLeft, BitVec.toNat_setWidth, Nat.shiftLeft_eq, fieldsOf_s_toNat]
  rw [fieldsOf_s_toNat] at hlt
  omega

/-- The exact sum is the significand plus 0x8000, in units of the operand's last place. -/
theorem fp32Add_correction_toNat (hlo : 1 ≤ a.toNat / 2 ^ 23 % 2 ^ 8) :
    (fp32Add a (correction a)).toNat = a.toNat / 2 ^ 31 * 2 ^ 31 +
      fp32MagBits ((2 ^ 23 + a.toNat % 2 ^ 23 + 2 ^ 15) * 2 ^ (a.toNat / 2 ^ 23 % 2 ^ 8 - 1)) := by
  obtain ⟨hsign, hmag⟩ := correction_value hlo
  have hsum : fp32Mag a + fp32Mag (correction a) =
      (2 ^ 23 + a.toNat % 2 ^ 23 + 2 ^ 15) * 2 ^ (a.toNat / 2 ^ 23 % 2 ^ 8 - 1) := by
    rw [hmag, fp32Mag_of_exp_pos hlo, ← Nat.add_mul]
  rw [fp32Add_toNat_of_same_sign hsign (by rw [hsum]; positivity), hsum]

/-- Above the low half the rounded sum is `A + 0x8000`: without a carry out of the fraction it is exact, and with one the
fraction is below 0x8000 before the rounding and at most that after it. -/
theorem clearLow_fp32Add_correction (h : fp32Normal a = true) :
    clearLow (fp32Add a (correction a)) = fp32ToBf16 a := by
  obtain ⟨hlo, hhi⟩ := (fp32Normal_iff a).1 h
  have ha := a.isLt
  apply BitVec.eq_of_toNat_eq
  rw [clearLow_toNat, fp32ToBf16_toNat_of_normal h, fp32Add_correction_toNat hlo]
  obtain hsmall | hcarry := Nat.lt_or_ge (2 ^ 23 + a.toNat % 2 ^ 23 + 2 ^ 15) (2 ^ 24)
  · rw [fp32MagBits_of_exact (by omega) hsmall]
    omega
  · obtain ⟨r, hr, hr', hbits⟩ := fp32MagBits_of_one_more_bit hcarry (by omega) (a.toNat / 2 ^ 23 % 2 ^ 8 - 1)
    rw [hbits]
    omega

end Normal

/-- Settles O18: a pattern that is not normal is truncated by both forms, and a normal one gets the rounded sum. -/
theorem f2bfAnswersTheNativeAddition : Obligations.F2bfAnswersTheNativeAddition := by
  unfold Obligations.F2bfAnswersTheNativeAddition
  intro s a ha
  have hnative : fp32ToBf16Native a = fp32ToBf16 a := by
    by_cases h : fp32Normal a = true
    · obtain ⟨hzero, hones⟩ : fp32Exp a ≠ 0#8 ∧ fp32Exp a ≠ 255#8 := by simpa [fp32Normal] using h
      rw [fp32ToBf16Native, if_neg (by simp [hzero, hones]), if_neg hzero, clearLow_fp32Add_correction h]
    · rw [fp32ToBf16_of_not_normal h, fp32ToBf16Native]
      split
      next => rfl
      next hspecial =>
        have hones : fp32Exp a ≠ 255#8 := fun hones => hspecial (.inr hones)
        have hzero : fp32Exp a = 0#8 := by
          by_contra hzero
          exact h (by simp [fp32Normal, hzero, hones])
        rw [if_pos hzero]
  rw [exec_f2bf ha, hnative]

end Sys2Proof.Machine
end

section
/-! How near BF.LN is to the logarithm on [1, 2) (43_ln_approximator.md §3). There the exponent is 0, so the result is the
cubic, whose 128 values are compared with two terms of the series of `log ((1 + z) / (1 - z))`; the rest of the series is
below 1/100. And the ln constants as roundings of their decimals. -/

namespace Sys2Proof.Machine

/-- Settles O37: the fp32 numbers nearest the five decimals. -/
theorem lnConstantsAreTheRoundedDecimals : Obligations.LnConstantsAreTheRoundedDecimals := by
  unfold Obligations.LnConstantsAreTheRoundedDecimals
  simp only [List.forall_mem_cons, List.not_mem_nil, false_imp_iff, implies_true, and_true]
  exact ⟨⟨0xBFBEB852#32, by decide⟩, ⟨0x40070A3D#32, by decide⟩, ⟨0xBF3AE148#32, by decide⟩, ⟨0x3DDF3B64#32, by decide⟩,
    ⟨0x3F316873#32, by decide⟩⟩

/-! ## Two terms of the logarithm's series -/

/-- `2 (z + z³/3)`, the series of `log ((1 + z) / (1 - z))` cut after its second term. -/
def atanhSum (z : ℚ) : ℚ := 2 * (z + z ^ 3 / 3)

/-- Up to `z = 1/3`, where the argument of the logarithm is 2, the rest of the series is below 1/100. -/
theorem log_div_bounds {z : ℚ} (h0 : 0 ≤ z) (h1 : z ≤ 1 / 3) :
    (atanhSum z : ℝ) ≤ Real.log ((1 + z) / (1 - z)) ∧
      Real.log ((1 + z) / (1 - z)) ≤ (atanhSum z : ℝ) + 1 / 100 := by
  have hz0 : (0 : ℝ) ≤ z := by exact_mod_cast h0
  have hz1 : (z : ℝ) ≤ 1 / 3 := by
    have h1' := (Rat.cast_le (K := ℝ)).2 h1
    push_cast at h1'
    exact h1'
  have hlow := Real.sum_range_le_log_div hz0 (by linarith) 2
  have hhigh := Real.log_div_le_sum_range_add hz0 (by linarith) 2
  have hrest : (z : ℝ) ^ (2 * 2 + 1) / (1 - (z : ℝ) ^ 2) ≤ 1 / 200 := by
    have hsq : (z : ℝ) ^ 2 ≤ (1 / 3) ^ 2 := pow_le_pow_left₀ hz0 hz1 2
    have hfifth : (z : ℝ) ^ 5 ≤ (1 / 3) ^ 5 := pow_le_pow_left₀ hz0 hz1 5
    rw [div_le_iff₀ (by linarith)]
    norm_num at hsq hfifth ⊢
    linarith
  have hsum : ∑ i ∈ Finset.range 2, (z : ℝ) ^ (2 * i + 1) / (2 * i + 1) = atanhSum z / 2 := by
    rw [atanhSum, Finset.sum_range_succ, Finset.sum_range_one]
    push_cast
    ring
  rw [hsum] at hlow hhigh
  constructor <;> linarith

/-! ## The value of a pattern in units of 2^-14 -/

/-- The value of a triple in units of 2^-14, exact from the exponent -7 up. -/
def unitsOf (x : Triple) : Int := signed x.s (x.m * 2 ^ (x.e + 7).toNat)

theorem bf16Mag_eq_opnd (w : Word) : bf16Mag w = ((opnd w).m : ℚ) * 2 ^ ((opnd w).e - 7) := by
  by_cases hz : isZeroBF w = true
  · rw [bf16Mag_of_zero hz, opnd_m_of_zero hz, Nat.cast_zero, zero_mul]
  · rw [bf16Mag_of_not_zero hz, opnd_m_of_not_zero hz]
    rfl

theorem bf16Value_eq_signed (w : Word) {n : Nat} {d : ℚ} (h : bf16Mag w = n / d) :
    bf16Value w = (signed (opnd w).s n : ℚ) / d := by
  obtain hs | hs := BitVec.eq_zero_or_eq_one (fieldsOf w).s
  · rw [bf16Value_of_positive hs, h, opnd, hs]
    simp [signed]
  · rw [bf16Value_of_negative hs, h, opnd, hs]
    simp [signed, neg_div]

theorem bf16Value_eq_units {w : Word} (h : (opnd w).m = 0 ∨ -7 ≤ (opnd w).e) :
    bf16Value w = (unitsOf (opnd w) : ℚ) / 2 ^ 14 := by
  refine bf16Value_eq_signed w ?_
  rw [bf16Mag_eq_opnd]
  obtain h | h := h
  · simp [h]
  · obtain ⟨k, hk⟩ := Int.eq_ofNat_of_zero_le (show 0 ≤ (opnd w).e + 7 by omega)
    have hexp : (opnd w).e - 7 = (k : Int) - (14 : Nat) := by omega
    rw [hexp, hk, zpow_sub₀ two_ne_zero, zpow_natCast, zpow_natCast, Int.toNat_natCast,
      Nat.cast_mul, Nat.cast_pow, Nat.cast_ofNat, mul_div_assoc]

/-! ## The cubic at the 128 mantissas -/

/-- R90's cubic at `1 + f/128`, with the default constants. -/
def lnCubicAt (f : Nat) : Word := lnCubic defaultParams (BitVec.ofNat 32 (0x3F800000 + f * 2 ^ 16))

/-- The cubic's value and the two terms at `z = f / (256 + f)` differ by less than 1/25, without fractions. -/
def LnCubicNear (f : Nat) : Prop :=
  ((opnd (lnCubicAt f)).m = 0 ∨ -7 ≤ (opnd (lnCubicAt f)).e) ∧
    25 * (3 * (256 + f) ^ 3 * unitsOf (opnd (lnCubicAt f)) - 2 ^ 14 * (6 * f * (256 + f) ^ 2 + 2 * f ^ 3)).natAbs <
      3 * 2 ^ 14 * (256 + f) ^ 3

/-- Computed by the kernel, one cubic for each mantissa. -/
theorem lnCubicNear_of_lt : ∀ f < 128, LnCubicNear f := by
  unfold LnCubicNear
  decide +kernel

theorem abs_lnCubicAt_sub_lt {f : Nat} (h : LnCubicNear f) :
    |bf16Value (lnCubicAt f) - atanhSum (f / (256 + f))| < 1 / 25 := by
  obtain ⟨hexact, hnear⟩ := h
  have hd : (0 : ℚ) < 3 * 2 ^ 14 * (256 + f) ^ 3 := by positivity
  have hfrac : bf16Value (lnCubicAt f) - atanhSum (f / (256 + f)) =
      ((3 * (256 + f) ^ 3 * unitsOf (opnd (lnCubicAt f)) - 2 ^ 14 * (6 * f * (256 + f) ^ 2 + 2 * f ^ 3) : Int) : ℚ) /
        (3 * 2 ^ 14 * (256 + f) ^ 3) := by
    have hne : (256 : ℚ) + f ≠ 0 := by positivity
    rw [bf16Value_eq_units hexact, atanhSum]
    push_cast
    field_simp
    ring
  have hnear' := (Nat.cast_lt (α := ℚ)).2 hnear
  rw [hfrac, abs_div, abs_of_pos hd, div_lt_iff₀ hd, ← Int.cast_abs, Int.abs_eq_natAbs, Int.cast_natCast]
  push_cast at hnear' ⊢
  linarith

/-! ## BF.LN on [1, 2) -/

theorem bf16Value_clearLow (w : Word) : bf16Value (clearLow w) = bf16Value w := by
  rw [bf16Value, bf16Value, bf16Mag, bf16Mag, isZeroBF_clearLow, fieldsOf_clearLow]

/-- Adding a zero of either sign leaves the value (R77). -/
theorem bf16Value_addsub_zero_right (p : Params) (a : Word) {z : Word} (hz : isZeroBF z = true) :
    bf16Value (addsub p a z false) = bf16Value a := by
  rw [addsub_zero_right p a hz]
  split
  next ha => rw [bf16Value_canonicalZero, bf16Value, bf16Mag_of_zero ha, neg_zero, ite_self]
  next => exact bf16Value_clearLow a

section OneToTwo
variable {a : Word} (hlo : 0x3F800000 ≤ a.toNat) (hhi : a.toNat < 0x40000000)
include hlo hhi

theorem lnNormal_of_oneToTwo : lnNormal a = true := by
  rw [lnNormal_iff]
  omega

/-- With exponent 0 the last product is a zero, and the polynomial is the cubic. -/
theorem bf16Value_lnWord_of_oneToTwo :
    bf16Value (lnWord defaultParams a) = bf16Value (lnCubicAt (a.toNat / 2 ^ 16 % 2 ^ 7)) := by
  have hnormal := lnNormal_of_oneToTwo hlo hhi
  have hexp : lnExponent a = 0 := by rw [lnExponent_eq]; omega
  have hzero : isZeroBF (mulbf defaultParams defaultParams.consts.ln2 (intToBf16 defaultParams (u32 0))) = true := by
    decide
  rw [lnWord_of_normal hnormal, lnPolynomial, hexp, bf16Value_addsub_zero_right _ _ hzero, lnMantissa_eq hnormal,
    lnCubicAt]

theorem bf16Value_of_oneToTwo : bf16Value a = 1 + (a.toNat / 2 ^ 16 % 2 ^ 7 : Nat) / 128 := by
  have hs : (fieldsOf a).s = 0#1 := by
    rw [← BitVec.toNat_inj, fieldsOf_s_toNat, BitVec.toNat_ofNat]
    omega
  have hz : ¬ isZeroBF a = true := by rw [isZeroBF_iff]; omega
  have hexp : ((fieldsOf a).e.toNat : ℤ) - 127 = 0 := by rw [fieldsOf_e_toNat]; omega
  rw [bf16Value_of_positive hs, bf16Mag, if_neg hz, hexp, zpow_zero, mul_one, fieldsOf_f_toNat]

end OneToTwo

/-- `1 + f/128` is `(1 + z) / (1 - z)` at `z = f / (256 + f)`. -/
theorem one_add_div_eq (f : Nat) :
    ((1 + (f : ℚ) / 128 : ℚ) : ℝ) = (1 + ((f / (256 + f) : ℚ) : ℝ)) / (1 - ((f / (256 + f) : ℚ) : ℝ)) := by
  have hne : (256 : ℝ) + f ≠ 0 := by positivity
  have hden : (1 : ℝ) - f / (256 + f) ≠ 0 := by
    rw [one_sub_div hne, add_sub_cancel_right]
    positivity
  push_cast
  field_simp
  ring

/-- Settles O41: the cubic is within 1/25 of two terms of the series, and these are at most 1/100 below the logarithm. -/
theorem lnIsWithinItsErrorBoundOnOneToTwo : Obligations.LnIsWithinItsErrorBoundOnOneToTwo := by
  unfold Obligations.LnIsWithinItsErrorBoundOnOneToTwo
  intro s a hparams ha hlo hhi
  refine ⟨_, exec_ln ha, ?_⟩
  rw [hparams, bf16Value_lnWord_of_oneToTwo hlo hhi, bf16Value_of_oneToTwo hlo hhi]
  generalize hf : a.toNat / 2 ^ 16 % 2 ^ 7 = f
  have hlt : f < 128 := hf ▸ Nat.mod_lt _ (by decide)
  have hz1 : (f : ℚ) / (256 + f) ≤ 1 / 3 := by
    have hle : (f : ℚ) ≤ 128 := by exact_mod_cast hlt.le
    rw [div_le_div_iff₀ (by positivity) (by norm_num)]
    linarith
  obtain ⟨hlog, hlog'⟩ := log_div_bounds (z := f / (256 + f)) (by positivity) hz1
  have hnear := (Rat.cast_lt (K := ℝ)).2 (abs_lnCubicAt_sub_lt (lnCubicNear_of_lt f hlt))
  have hbound : ((1 / 25 : ℚ) : ℝ) = 1 / 25 := by norm_num
  rw [Rat.cast_abs, Rat.cast_sub, hbound, abs_lt] at hnear
  obtain ⟨hnear_lo, hnear_hi⟩ := hnear
  rw [one_add_div_eq, abs_lt]
  constructor <;> linarith

end Sys2Proof.Machine
end
